-- ==== Sys2Proof/Word.lean ====
section
/-!
DEFINITION. The two bit-vector types of the machine.

A word is 16 bits and a byte 8 bits (spec/00_scope.md R5, R9). Everything a test could show wrong about
splitting a word into bytes or sign-extending a field stands in Sys2Proof/Decode.lean instead.
-/

namespace Sys2Proof

/-- A word: the content of a register, an address, an instruction (R5: XLEN = ILEN = 16). -/
abbrev Word := BitVec 16

/-- A byte of memory or a console character (R5: 8 bits). -/
abbrev Byte := BitVec 8

end Sys2Proof
end

