-- ==== Sys2Proof/Syntax.lean ====
section
/-!
DEFINITION. The 16 instructions as terms, one constructor per row of spec/opcode_table.json.

A register operand is an index and an immediate is a signed number, as spec/30_encoding.md R83 speaks of
them; which indices and numbers an instruction word can hold is Sys2Proof/WellFormed.lean (log 21).
-/

namespace Sys2Proof

/-- The instruction set (R78). `rd` is the destination of every instruction that has one, and the stored
register of STORE (R141). -/
inductive Instr where
  /-- 0x0 NOP: no effect (R150). -/
  | nop
  /-- 0x1 ADD Rd, Rs1, Rs2 (R120). -/
  | add (rd rs1 rs2 : Nat)
  /-- 0x2 ADDI Rd, imm9 (R121). -/
  | addi (rd : Nat) (imm9 : Int)
  /-- 0x3 SUB Rd, Rs1, Rs2 (R122). -/
  | sub (rd rs1 rs2 : Nat)
  /-- 0x4 SUBI Rd, imm9 (R123). -/
  | subi (rd : Nat) (imm9 : Int)
  /-- 0x5 AND Rd, Rs1, Rs2 (R124). -/
  | and (rd rs1 rs2 : Nat)
  /-- 0x6 OR Rd, Rs1, Rs2 (R125). -/
  | or (rd rs1 rs2 : Nat)
  /-- 0x7 XOR Rd, Rs1, Rs2 (R126). -/
  | xor (rd rs1 rs2 : Nat)
  /-- 0x8 LOAD Rd, [Rs1 + offset6] (R140). -/
  | load (rd rs1 : Nat) (offset6 : Int)
  /-- 0x9 STORE Rd, [Rs1 + offset6] (R141). -/
  | store (rd rs1 : Nat) (offset6 : Int)
  /-- 0xA LOADI Rd, imm9 (R127). -/
  | loadi (rd : Nat) (imm9 : Int)
  /-- 0xB BRANCH imm12 (R151). -/
  | branch (imm12 : Int)
  /-- 0xC BEQ imm12 (R152). -/
  | beq (imm12 : Int)
  /-- 0xD BNE imm12 (R153). -/
  | bne (imm12 : Int)
  /-- 0xE BLT imm12 (R154). -/
  | blt (imm12 : Int)
  /-- 0xF HALT (R155). -/
  | halt
  deriving DecidableEq, Repr

/-- The opcode of an instruction, the table's first column (R78). -/
def Instr.opcode : Instr → Nat
  | .nop => 0x0
  | .add .. => 0x1
  | .addi .. => 0x2
  | .sub .. => 0x3
  | .subi .. => 0x4
  | .and .. => 0x5
  | .or .. => 0x6
  | .xor .. => 0x7
  | .load .. => 0x8
  | .store .. => 0x9
  | .loadi .. => 0xA
  | .branch .. => 0xB
  | .beq .. => 0xC
  | .bne .. => 0xD
  | .blt .. => 0xE
  | .halt => 0xF

/-- The eight ALU-class opcodes, 0x1 to 0x7 and 0xA: `AluExec` handles these and reports every other one
as not handled (R9, R112, R129). -/
def Instr.isAlu : Instr → Bool
  | .add .. | .addi .. | .sub .. | .subi .. | .and .. | .or .. | .xor .. | .loadi .. => true
  | .nop | .load .. | .store .. | .branch .. | .beq .. | .bne .. | .blt .. | .halt => false

/-- The seven instructions that recompute Z and N (R22, R26): the ALU class without LOADI. -/
def Instr.setsZN : Instr → Bool
  | .add .. | .addi .. | .sub .. | .subi .. | .and .. | .or .. | .xor .. => true
  | .loadi .. | .nop | .load .. | .store .. | .branch .. | .beq .. | .bne .. | .blt .. | .halt => false

/-- The one instruction that writes Carry (R23). -/
def Instr.setsCarry : Instr → Bool
  | .add .. => true
  | .addi .. | .sub .. | .subi .. | .and .. | .or .. | .xor .. | .loadi .. | .nop | .load .. | .store ..
  | .branch .. | .beq .. | .bne .. | .blt .. | .halt => false

/-- The register an instruction writes, when it has one (R15). -/
def Instr.dest : Instr → Option Nat
  | .add rd _ _ | .addi rd _ | .sub rd _ _ | .subi rd _ | .and rd _ _ | .or rd _ _ | .xor rd _ _
  | .load rd _ _ | .loadi rd _ => some rd
  | .nop | .store .. | .branch .. | .beq .. | .bne .. | .blt .. | .halt => none

end Sys2Proof
end

