-- ==== Sys2Proof/WellFormed.lean ====
section
/-!
DEFINITION. Which operands an instruction word can hold.

"Valid means: register indices in 0..7, `imm9` in -256..255, `imm12` in -2048..2047, `offset6` in
-32..31" (spec/30_encoding.md R83).
-/

namespace Sys2Proof

/-- A register index of a 3-bit field (R14, R71, R83). -/
def regOk (i : Nat) : Bool := decide (i < 8)

/-- A number a 9-bit immediate denotes (R74, R83). -/
def imm9Ok (v : Int) : Bool := decide (-256 ≤ v ∧ v ≤ 255)

/-- A number a 12-bit immediate denotes (R75, R83). -/
def imm12Ok (v : Int) : Bool := decide (-2048 ≤ v ∧ v ≤ 2047)

/-- A number a 6-bit offset denotes (R76, R83). -/
def offset6Ok (v : Int) : Bool := decide (-32 ≤ v ∧ v ≤ 31)

/-- Every operand fits its field (R83). -/
def Instr.wellFormed : Instr → Bool
  | .nop | .halt => true
  | .add rd rs1 rs2 | .sub rd rs1 rs2 | .and rd rs1 rs2 | .or rd rs1 rs2 | .xor rd rs1 rs2 =>
    regOk rd && regOk rs1 && regOk rs2
  | .addi rd imm9 | .subi rd imm9 | .loadi rd imm9 => regOk rd && imm9Ok imm9
  | .load rd rs1 offset6 | .store rd rs1 offset6 => regOk rd && regOk rs1 && offset6Ok offset6
  | .branch imm12 | .beq imm12 | .bne imm12 | .blt imm12 => imm12Ok imm12

end Sys2Proof
end

