-- ==== Sys2Proof/Decode.lean ====
section
/-!
DEFINITION. From bits to instructions and back (spec/30_encoding.md).

The decoder slices every field out of every word without looking at the opcode (R73) and the opcode then
selects the instruction and the fields it reads (R72, R78). The encoder follows R82. Byte order is decided
once, here (R66, R70).
-/

namespace Sys2Proof

/-! ## Byte order and sign extension -/

/-- Bits 7..0 of a word, the byte at the lower address (R44, R66). -/
def loByte (w : Word) : Byte := w.extractLsb' 0 8

/-- Bits 15..8 of a word, the byte at the higher address (R44, R66). -/
def hiByte (w : Word) : Byte := w.extractLsb' 8 8

/-- `hi || lo`: the word of two bytes in memory, low byte at the lower address (R44). -/
def wordOfBytes (lo hi : Byte) : Word := hi ++ lo

/-- The `len`-bit field of `w` that ends at bit `lsb`, read as an unsigned number (R8, R71). -/
def unsignedField (w : Word) (lsb len : Nat) : Nat := (w.extractLsb' lsb len).toNat

/-- `sext_16` of the low `len` bits of `w`: every immediate ends at bit 0 and its sign bit is its own top
bit (R8, R71, R74 to R76). -/
def sextField (w : Word) (len : Nat) : Word := (w.extractLsb' 0 len).signExtend 16

/-! ## The decoder -/

/-- The decoded record: the opcode and the six operand fields (R73, conflict C5). `pad` is no part of it. The
opcode and the indices are wider than their fields, so that the Control Unit's and the register bank's
answers to values no word holds can be said (R12, R13, R156). -/
structure Decoded where
  opcode : Nat
  rd : Nat
  rs1 : Nat
  rs2 : Nat
  imm9 : Word
  imm12 : Word
  offset6 : Word
  deriving DecidableEq, Repr

/-- `Decode(w)`: pure and total, all fields extracted unconditionally (R73). -/
def decodeFields (w : Word) : Decoded where
  opcode := unsignedField w 12 4
  rd := unsignedField w 9 3
  rs1 := unsignedField w 6 3
  rs2 := unsignedField w 3 3
  imm9 := sextField w 9
  imm12 := sextField w 12
  offset6 := sextField w 6

/-- Why bytes or a decoded record are no instruction. -/
inductive DecodeError where
  /-- Fewer than the two bytes of an instruction word (R70). Raised by `decode` on a short list of bytes. -/
  | truncated
  /-- An opcode outside the 16 defined (R156). Raised by `Decoded.toInstr` on a record that no word decodes
  to (R80). -/
  | unknownOpcode (opcode : Nat)
  deriving DecidableEq, Repr

/-- The opcode map (R78): the opcode alone selects the instruction, the format names the fields it reads
(R72), and each immediate is read as a signed number (R73). -/
def Decoded.toInstr (d : Decoded) : Except DecodeError Instr :=
  match d.opcode with
  | 0x0 => .ok .nop
  | 0x1 => .ok (.add d.rd d.rs1 d.rs2)
  | 0x2 => .ok (.addi d.rd d.imm9.toInt)
  | 0x3 => .ok (.sub d.rd d.rs1 d.rs2)
  | 0x4 => .ok (.subi d.rd d.imm9.toInt)
  | 0x5 => .ok (.and d.rd d.rs1 d.rs2)
  | 0x6 => .ok (.or d.rd d.rs1 d.rs2)
  | 0x7 => .ok (.xor d.rd d.rs1 d.rs2)
  | 0x8 => .ok (.load d.rd d.rs1 d.offset6.toInt)
  | 0x9 => .ok (.store d.rd d.rs1 d.offset6.toInt)
  | 0xA => .ok (.loadi d.rd d.imm9.toInt)
  | 0xB => .ok (.branch d.imm12.toInt)
  | 0xC => .ok (.beq d.imm12.toInt)
  | 0xD => .ok (.bne d.imm12.toInt)
  | 0xE => .ok (.blt d.imm12.toInt)
  | 0xF => .ok .halt
  | op => .error (.unknownOpcode op)

/-- The instruction a word is. Every word is one (R80). -/
def decodeWord (w : Word) : Except DecodeError Instr := (decodeFields w).toInstr

/-- The instruction at the head of a list of bytes, and the bytes after it (R66, R70). -/
def decode : List Byte → Except DecodeError (Instr × List Byte)
  | lo :: hi :: rest =>
    match decodeWord (wordOfBytes lo hi) with
    | .ok i => .ok (i, rest)
    | .error e => .error e
  | [] | [_] => .error .truncated

/-! ## The encoder -/

/-- `EncodeR(op, rd, rs1, rs2)`, `pad` = 0 (R72, R82). -/
def encodeR (op rd rs1 rs2 : Nat) : Word :=
  BitVec.ofNat 4 op ++ BitVec.ofNat 3 rd ++ BitVec.ofNat 3 rs1 ++ BitVec.ofNat 3 rs2 ++ 0#3

/-- `EncodeI(op, rd, imm)`: the immediate is masked to 9 bits (R72, R82). -/
def encodeI (op rd : Nat) (imm : Int) : Word :=
  BitVec.ofNat 4 op ++ BitVec.ofNat 3 rd ++ BitVec.ofInt 9 imm

/-- `EncodeM(op, rd, rs1, off)`: the offset is masked to 6 bits (R72, R82). -/
def encodeM (op rd rs1 : Nat) (off : Int) : Word :=
  BitVec.ofNat 4 op ++ BitVec.ofNat 3 rd ++ BitVec.ofNat 3 rs1 ++ BitVec.ofInt 6 off

/-- `EncodeB(op, imm)`: the immediate is masked to 12 bits (R72, R82). -/
def encodeB (op : Nat) (imm : Int) : Word := BitVec.ofNat 4 op ++ BitVec.ofInt 12 imm

/-- `EncodeN(op)`: the unused bits are 0 (R72, R82). -/
def encodeN (op : Nat) : Word := BitVec.ofNat 4 op ++ 0#12

/-- `Encode` (R82, R84). Operands are masked to their fields, as the assembler masks immediates. -/
def encode : Instr → Word
  | .nop => encodeN 0x0
  | .add rd rs1 rs2 => encodeR 0x1 rd rs1 rs2
  | .addi rd imm9 => encodeI 0x2 rd imm9
  | .sub rd rs1 rs2 => encodeR 0x3 rd rs1 rs2
  | .subi rd imm9 => encodeI 0x4 rd imm9
  | .and rd rs1 rs2 => encodeR 0x5 rd rs1 rs2
  | .or rd rs1 rs2 => encodeR 0x6 rd rs1 rs2
  | .xor rd rs1 rs2 => encodeR 0x7 rd rs1 rs2
  | .load rd rs1 offset6 => encodeM 0x8 rd rs1 offset6
  | .store rd rs1 offset6 => encodeM 0x9 rd rs1 offset6
  | .loadi rd imm9 => encodeI 0xA rd imm9
  | .branch imm12 => encodeB 0xB imm12
  | .beq imm12 => encodeB 0xC imm12
  | .bne imm12 => encodeB 0xD imm12
  | .blt imm12 => encodeB 0xE imm12
  | .halt => encodeN 0xF

/-- A word as it lies in memory and in the assembler's output file: low byte first (R66, R94). -/
def bytesOfWord (w : Word) : List Byte := [loByte w, hiByte w]

/-- The bits of a word that the format of an opcode gives a meaning; the others are ignored (R72, R79). -/
def usedBits (op : Nat) : Word :=
  match op with
  | 0x0 | 0xF => 0xF000
  | 0x1 | 0x3 | 0x5 | 0x6 | 0x7 => 0xFFF8
  | _ => 0xFFFF

/-! ## The host's view of the decoder -/

/-- The word of the `nbits` low bits of `w`; a row of the table is one 16-bit word, so bits above are 0. -/
def tableWord (nbits w : Nat) : Word := BitVec.ofNat 16 (w % 2 ^ nbits)

/-- What the decoder reads from a row of spec/opcode_table.json whose bits are `w`. -/
def decodeTableWord (nbits w : Nat) : Option Instr :=
  match decode (bytesOfWord (tableWord nbits w)) with
  | .ok (i, _) => some i
  | .error _ => none

end Sys2Proof
end

