-- ==== Sys2Proof/Config.lean ====
section
/-!
DEFINITION. What the hardware fixes (spec/00_scope.md R5, spec/20_memory.md R41, R43) and the one free value.

"Partition boundaries are compile-time constants, not runtime-configurable" (R5).
-/

namespace Sys2Proof.Config

/-- NREG: the number of general registers (R5, R11). -/
def numRegs : Nat := 8

/-- ADDRSPACE: bytes in the one address space (R5, R40). -/
def addrSpace : Nat := 0x10000

/-- The first address of the memory-mapped I/O region; RAM lies below it (R41). -/
def mmioFirst : Word := 0xF000

/-- The last address of the memory-mapped I/O region; the stack region lies above it (R41). -/
def mmioLast : Word := 0xF0FF

/-- The last address of the address space. A word access there fails the bounds check (R47). -/
def lastAddr : Word := 0xFFFF

/-- The console-out register (R49). -/
def consoleOut : Word := 0xF000

/-- The console-in register (R51). -/
def consoleIn : Word := 0xF001

/-- The timer control register (R52). -/
def timerControl : Word := 0xF002

/-- The timer value register (R53). -/
def timerValue : Word := 0xF003

/-- LOAD_BASE: the address a program is loaded at (R5, R43). -/
def loadBase : Nat := 0x0000

/-- ENTRY: `pc` after reset. DESIGN CHOICE of the spec (R35, R191, D24), log 6. -/
def entry : Word := 0x0000

/-- SP_RESET: `sp` after reset, "top of stack region"; the number is a DESIGN CHOICE of the spec
(R5, R35, D3), log 5. -/
def spReset : Word := 0xFFFF

/-- What a byte of memory that nothing has written reads as: the reset value of `mem`. DESIGN CHOICE of the
spec (R35, D2), log 7. -/
def memReset : Byte := 0x00

/-- FREE VALUE. What the `n`-th word read of the timer value register returns: "the low 16 bits of a
wall-clock millisecond counter", "a free 16-bit value under no law" (R53, D12). It has no body, so
a statement that mentions it holds for every value it could have. Log 3. -/
opaque timerDraw : Nat → Word

end Sys2Proof.Config
end

