-- ==== Sys2Proof/Machine/State.lean ====
section
/-!
DEFINITION. Everything the spec gives the machine, as plain data, and the machine right after reset
(spec/10_state.md R10, R35).
-/

namespace Sys2Proof.Machine

/-- The backing array (R30) as the list of the bytes that differ from what an unlisted address reads as, by
rising address: the canonical form `Memory.wf` of Sys2Proof/Machine/Ops.lean. -/
abbrev Memory := List Host.Cell

/-- The four status flags: independent booleans with no packed layout (R21, D17). -/
structure Flags where
  /-- Z (R22). -/
  zero : Bool
  /-- N (R22). -/
  negative : Bool
  /-- C, written by ADD alone (R23). -/
  carry : Bool
  /-- V, written by nothing (R24). -/
  overflow : Bool
  deriving DecidableEq, Repr

/-- The console input stream as the host has supplied it so far (R31, R51, R58). -/
structure ConsoleInput where
  /-- Characters supplied and not yet read, the next one first. -/
  pending : List Byte
  /-- The host has closed the input: after the pending characters every read answers 0. -/
  ended : Bool
  deriving DecidableEq, Repr

/-- The kind of access a bounds violation reports (R32, R171). -/
inductive AccessKind where
  | read
  | write
  deriving DecidableEq, Repr

/-- A condition reported (R32, D13). -/
inductive Report where
  /-- `BoundsViolation(kind, addr)` (R171). -/
  | boundsViolation (kind : AccessKind) (addr : Word)
  /-- `UnknownOpcode(opcode, at)`: the opcode and the address the word was fetched from (R156, R172). -/
  | unknownOpcode (opcode : Nat) (fetchedFrom : Word)
  deriving DecidableEq, Repr

/-- The complete state of the core (R10, R33) and, last, the model's own draw counter. -/
structure State where
  /-- x[0]..x[7] (R11). -/
  regs : Vector Word 8
  /-- The program counter, a byte address (R16). -/
  pc : Word
  /-- The instruction register: the last fetched word (R19). -/
  ir : Word
  /-- The stack pointer, managed by nothing (R20). -/
  sp : Word
  /-- Z, N, C, V (R21). -/
  flags : Flags
  /-- The halted flag (R27). -/
  halted : Bool
  /-- The cycle counter, unbounded (R28). -/
  cycle : Nat
  /-- The debug flag, without semantic effect (R29). -/
  debug : Bool
  /-- The backing array of the memory bus (R30). -/
  mem : Memory
  /-- Device state written through 0xF002 (R31, R52). -/
  timerEnabled : Bool
  /-- Device state written through 0xF003 (R31, R53). -/
  timerReg : Word
  /-- Everything written to the console so far, oldest first (R31, R49). -/
  cout : List Byte
  /-- The console input stream (R31, R51). -/
  cin : ConsoleInput
  /-- Every condition reported so far (R32). -/
  diag : List Report
  /-- THE MODEL'S OWN: how many words have been read from the timer value register, the index of the next
  free value `Config.timerDraw` (R53, log 3). No statement rests on its value. -/
  draws : Nat
  deriving DecidableEq, Repr

/-- Why the machine takes no step. -/
inductive Fault where
  /-- A HOLD, not an error: a word read of 0xF001 (by LOAD or by a fetch) while no character is pending and
  the input has not ended. The step is not enabled and no state changes; it is the only way a step can
  fail to complete (R58, R117, U5 "stuck until the oracle answers"). Raised by `execLoad` and by
  `fetchExecute`; lifted by `supplyInput` or `endInput`. Safe: no value is invented. Log 1. -/
  | consoleInputWait
  deriving DecidableEq, Repr

/-- Why an instruction has no meaning. -/
inductive Refusal where
  /-- Raised by an arm of `exec` whose instruction has no meaning yet: no arm is so today. Safe. -/
  | notModelled (mnemonic : String)
  deriving DecidableEq, Repr

/-- The machine right after `Reset()` (R35, R190). The values are the spec's decisions D2, D3 and D24 (logs 4
to 7); the console input, which reset does not touch, has supplied nothing yet (log 2). -/
def State.reset : State where
  regs := Vector.replicate 8 0
  pc := Config.entry
  ir := 0
  sp := Config.spReset
  flags := { zero := false, negative := false, carry := false, overflow := false }
  halted := false
  cycle := 0
  debug := false
  mem := []
  timerEnabled := false
  timerReg := 0
  cout := []
  cin := { pending := [], ended := false }
  diag := []
  draws := 0

end Sys2Proof.Machine
end

