-- ==== Sys2Proof/Machine/Ops.lean ====
section
/-!
DEFINITION. The named operations over the state: updates of one field, the register bank, the byte array, the
memory bus with its devices, and the two error conditions.

This machine has no exception that transfers control, saves anything or changes a mode (spec/60_exceptions.md
R176 to R179). What its two error conditions do is `State.report` and `raiseUnknownOpcode`, the shared
operations that stand where other machines enter a handler; there is no return (R177).
-/

namespace Sys2Proof.Machine

/-! ## Updates of one field -/

/-- `pc <- target` (R8, R16). -/
def State.setPc (s : State) (target : Word) : State := { s with pc := target }

/-- `ir <- w` (R19). -/
def State.setIr (s : State) (w : Word) : State := { s with ir := w }

/-- The flags as a whole. -/
def State.setFlags (s : State) (f : Flags) : State := { s with flags := f }

/-- `halted <- 1` (R27). -/
def State.halt (s : State) : State := { s with halted := true }

/-- `cycle <- cycle + 1` (R28). -/
def State.tick (s : State) : State := { s with cycle := s.cycle + 1 }

/-- The debug flag, the host's to set or clear (R29). -/
def State.setDebug (s : State) (b : Bool) : State := { s with debug := b }

/-- The backing array as a whole. -/
def State.setMem (s : State) (m : Memory) : State := { s with mem := m }

/-- `timer_enabled <- b` (R52). -/
def State.setTimerEnabled (s : State) (b : Bool) : State := { s with timerEnabled := b }

/-- `timer_reg <- v` (R53). -/
def State.setTimerReg (s : State) (v : Word) : State := { s with timerReg := v }

/-- `cout <- cout ++ [b]` (R49). -/
def State.emit (s : State) (b : Byte) : State := { s with cout := s.cout ++ [b] }

/-- The console input stream as a whole. -/
def State.setCin (s : State) (c : ConsoleInput) : State := { s with cin := c }

/-- `diag <- diag ++ [r]` (R32, R171). -/
def State.report (s : State) (r : Report) : State := { s with diag := s.diag ++ [r] }

/-- One more word read from the timer value register (R53, log 3). -/
def State.countDraw (s : State) : State := { s with draws := s.draws + 1 }

/-! ## The register bank -/

/-- `RegRead(i)`, written x[i]: 0 when `i` is outside 0..7, and no side effect (R12, conflict C7). -/
def State.readReg (s : State) (i : Nat) : Word := s.regs[i]?.getD 0

/-- `RegWrite(i, v)`: nothing is written and nothing reported when `i` is outside 0..7 (R13). -/
def State.writeReg (s : State) (i : Nat) (v : Word) : State := { s with regs := s.regs.setIfInBounds i v }

/-! ## The backing array -/

/-- The canonical form: addresses strictly rise, lie in the address space, and no entry equals what an
unlisted address reads as. -/
abbrev Memory.wf (m : Memory) : Prop :=
  m.Pairwise (fun x y => x.1 < y.1) ∧ ∀ x ∈ m, x.1 < Config.addrSpace ∧ x.2 ≠ Config.memReset

/-- `mem[a]`: one byte of the array, the reset value where nothing is listed (R30, R35). -/
def Memory.readByte : Memory → Nat → Byte
  | [], _ => Config.memReset
  | (k, b) :: m, a => if k = a then b else Memory.readByte m a

/-- A byte before the rest of the array; the value an unlisted address reads as is not listed. -/
def Memory.place (m : Memory) (a : Nat) (v : Byte) : Memory :=
  if v = Config.memReset then m else (a, v) :: m

/-- `mem[a] <- v`, keeping the canonical form. -/
def Memory.writeByte : Memory → Nat → Byte → Memory
  | [], a, v => Memory.place [] a v
  | (k, b) :: m, a, v =>
    if a < k then Memory.place ((k, b) :: m) a v
    else if a = k then Memory.place m a v
    else (k, b) :: Memory.writeByte m a v

/-- `mem[a + 1] || mem[a]`, the little-endian word at `a` (R44, R66). -/
def Memory.loadWord (m : Memory) (a : Word) : Word :=
  wordOfBytes (m.readByte a.toNat) (m.readByte (a.toNat + 1))

/-- `mem[a] <- v[7:0]; mem[a + 1] <- v[15:8]` (R45). -/
def Memory.storeWord (m : Memory) (a v : Word) : Memory :=
  (m.writeByte a.toNat (loByte v)).writeByte (a.toNat + 1) (hiByte v)

/-! ## The address map -/

/-- The three regions of the address space (R41). -/
inductive Region where
  /-- 0x0000..0xEFFF, plain storage. -/
  | ram
  /-- 0xF000..0xF0FF, intercepted. -/
  | mmio
  /-- 0xF100..0xFFFF, plain storage, the same as RAM (R42). -/
  | stack
  deriving DecidableEq, Repr

/-- The region of an address (R41). -/
def regionOf (a : Word) : Region :=
  if a < Config.mmioFirst then .ram else if a ≤ Config.mmioLast then .mmio else .stack

/-- A word access at `a` would touch byte 0x10000 (R44, R47). -/
def outOfBounds (a : Word) : Bool := decide (a.toNat + 1 ≥ Config.addrSpace)

/-- A word access at `a` is to plain storage: neither rejected by the bounds check nor intercepted. The
address of the access alone decides (R48, D8). -/
def isPlain (a : Word) : Bool := !outOfBounds a && decide (regionOf a ≠ .mmio)

/-! ## The devices -/

/-- `ConsoleNext()`: the next character, zero-extended; 0x0000 once the input has ended; no answer (the wait
of R58) while neither (R51, D11). -/
def consoleNext (s : State) : Option (Word × State) :=
  match s.cin.pending with
  | c :: rest => some (c.setWidth 16, s.setCin { s.cin with pending := rest })
  | [] => if s.cin.ended then some (0, s) else none

/-- A word read of the timer value: the next free value (R53, D12, log 3). -/
def drawTimer (s : State) : Word × State := (Config.timerDraw s.draws, s.countDraw)

/-- `DeviceRead(a)` for `a` in the MMIO region; no answer only at 0xF001 (R50 to R54, R58). -/
def deviceRead (a : Word) (s : State) : Option (Word × State) :=
  if a = Config.consoleIn then consoleNext s
  else if a = Config.timerValue then some (drawTimer s)
  else some (0, s)

/-- `DeviceWrite(a, v)` for `a` in the MMIO region (R49, R51 to R54). -/
def deviceWrite (a v : Word) (s : State) : State :=
  if a = Config.consoleOut then s.emit (loByte v)
  else if a = Config.timerControl then s.setTimerEnabled (decide (v ≠ 0))
  else if a = Config.timerValue then s.setTimerReg v
  else s

/-! ## The memory bus -/

/-- `MemRead(a, 2)` (R44). No answer is the wait for console input and nothing else (R58, R117). -/
def memRead (a : Word) (s : State) : Option (Word × State) :=
  if outOfBounds a then some (0, s.report (.boundsViolation .read a))
  else if regionOf a = .mmio then deviceRead a s
  else some (s.mem.loadWord a, s)

/-- `MemWrite(a, 2, v)` (R45). -/
def memWrite (a v : Word) (s : State) : State :=
  if outOfBounds a then s.report (.boundsViolation .write a)
  else if regionOf a = .mmio then deviceWrite a v s
  else s.setMem (s.mem.storeWord a v)

/-! ## The unknown-opcode stop -/

/-- `raise UnknownOpcode(opcode, A)`: one record, and `halted` is set (R156, R172). The run is over, so this
is a next state; no instruction word reaches it (R80). Log 22. -/
def raiseUnknownOpcode (opcode : Nat) (fetchedFrom : Word) (s : State) : State :=
  (s.report (.unknownOpcode opcode fetchedFrom)).halt

end Sys2Proof.Machine
end

