-- ==== Sys2Proof/Machine/Flags.lean ====
section
/-!
DEFINITION. Every flag computation of the spec (spec/10_state.md R22 to R26).
-/

namespace Sys2Proof.Machine

/-- Z of a result: all 16 bits are 0 (R22, R128). -/
def isZero (r : Word) : Bool := decide (r = 0)

/-- N of a result: bit 15 (R22, R128). -/
def isNegative (r : Word) : Bool := r.getLsbD 15

/-- C of an ADD: the exact sum is above 0xFFFF, its bit 16 is set (R23, R120). -/
def carryOut (a b : Word) : Bool := decide (a.toNat + b.toNat > 0xFFFF)

/-- `UpdateZN(r)`, the shared flag-update rule. C and V are left (R22, R23, R24). -/
def State.updateZN (s : State) (r : Word) : State :=
  s.setFlags { s.flags with zero := isZero r, negative := isNegative r }

/-- Carry set or cleared; used by ADD only (R7, R23). -/
def State.setCarry (s : State) (c : Bool) : State := s.setFlags { s.flags with carry := c }

end Sys2Proof.Machine
end

