-- ==== Sys2Proof/Machine/Operands.lean ====
section
/-!
DEFINITION. Every operand form of the spec: an immediate brought to 16 bits (spec/30_encoding.md R77), the one
data addressing mode (spec/42_load_store.md R142) and the branch target (spec/43_control_flow.md R157).
-/

namespace Sys2Proof.Machine

/-- A signed number as a 16-bit vector, reduced modulo 2^16 (R8, R77, R128). -/
def immWord (v : Int) : Word := BitVec.ofInt 16 v

/-- `ea = (u(x[rs1]) + signed_6(offset6)) mod 2^16`: base register plus signed byte displacement (R142). -/
def effAddr (s : State) (rs1 : Nat) (offset6 : Int) : Word := s.readReg rs1 + immWord offset6

/-- `(pc + signed_12(imm12)) mod 2^16`, with `pc` already the address after the branch (R151, R157). -/
def branchTarget (s : State) (imm12 : Int) : Word := s.pc + immWord imm12

end Sys2Proof.Machine
end

