-- ==== Sys2Proof/Machine/Alu.lean ====
section
/-!
DEFINITION. The meanings of the eight ALU-class instructions (spec/41_alu.md R120 to R128).

Each is the `Execute` line of spec/40_step_cycle.md R110: `pc` has already been advanced. Each answers a next
state in every state: none raises or reports anything. Sources are read before the destination is written
(R15).
-/

namespace Sys2Proof.Machine


/-- What the seven computing instructions do with their result: `x[rd] <- r`, then `UpdateZN(r)` (R22). -/
def writeResult (rd : Nat) (r : Word) (s : State) : State := (s.writeReg rd r).updateZN r

/-- ADD: the wrapped sum; Z, N and, alone among all instructions, C (R120, R23). -/
def execAdd (rd rs1 rs2 : Nat) (s : State) : Host.Outcome State Fault Refusal :=
  .next ((writeResult rd (s.readReg rs1 + s.readReg rs2) s).setCarry (carryOut (s.readReg rs1) (s.readReg rs2)))

/-- ADDI: `rd` is both source and destination; C is kept (R121, D4, D5). -/
def execAddi (rd : Nat) (imm9 : Int) (s : State) : Host.Outcome State Fault Refusal :=
  .next (writeResult rd (s.readReg rd + immWord imm9) s)

/-- SUB: minuend `rs1`, subtrahend `rs2`; C is kept (R122, D4). -/
def execSub (rd rs1 rs2 : Nat) (s : State) : Host.Outcome State Fault Refusal :=
  .next (writeResult rd (s.readReg rs1 - s.readReg rs2) s)

/-- SUBI: `rd` is both source and destination; C is kept (R123, D4). -/
def execSubi (rd : Nat) (imm9 : Int) (s : State) : Host.Outcome State Fault Refusal :=
  .next (writeResult rd (s.readReg rd - immWord imm9) s)

/-- AND, bitwise; C is kept (R124). -/
def execAnd (rd rs1 rs2 : Nat) (s : State) : Host.Outcome State Fault Refusal :=
  .next (writeResult rd (s.readReg rs1 &&& s.readReg rs2) s)

/-- OR, bitwise; C is kept (R125). -/
def execOr (rd rs1 rs2 : Nat) (s : State) : Host.Outcome State Fault Refusal :=
  .next (writeResult rd (s.readReg rs1 ||| s.readReg rs2) s)

/-- XOR, bitwise; C is kept (R126). -/
def execXor (rd rs1 rs2 : Nat) (s : State) : Host.Outcome State Fault Refusal :=
  .next (writeResult rd (s.readReg rs1 ^^^ s.readReg rs2) s)

/-- LOADI: the sign-extended immediate; no flag is written (R127). -/
def execLoadi (rd : Nat) (imm9 : Int) (s : State) : Host.Outcome State Fault Refusal := .next (s.writeReg rd (immWord imm9))

end Sys2Proof.Machine
end

