-- ==== Sys2Proof/Machine/ControlFlow.lean ====
section
/-!
DEFINITION. The meanings of the six instructions the Control Unit performs itself (spec/43_control_flow.md).

`pc` already holds the address after the instruction; a taken branch replaces it and nothing advances it again
(R114). Branches change nothing but `pc` (R161).
-/

namespace Sys2Proof.Machine

/-- A branch taken exactly when `cond` holds (R151 to R154). -/
def branchIf (cond : Bool) (imm12 : Int) (s : State) : State :=
  if cond then s.setPc (branchTarget s imm12) else s

/-- NOP: no effect; the step around it still counts and advances (R150). -/
def execNop (s : State) : Host.Outcome State Fault Refusal := .next s

/-- BRANCH: always taken (R151). -/
def execBranch (imm12 : Int) (s : State) : Host.Outcome State Fault Refusal := .next (branchIf true imm12 s)

/-- BEQ: taken when Z = 1 (R152). -/
def execBeq (imm12 : Int) (s : State) : Host.Outcome State Fault Refusal := .next (branchIf s.flags.zero imm12 s)

/-- BNE: taken when Z = 0 (R153). -/
def execBne (imm12 : Int) (s : State) : Host.Outcome State Fault Refusal := .next (branchIf (!s.flags.zero) imm12 s)

/-- BLT: taken when N = 1, whatever V and C are (R154, R25). -/
def execBlt (imm12 : Int) (s : State) : Host.Outcome State Fault Refusal := .next (branchIf s.flags.negative imm12 s)

/-- HALT: `halted <- 1`; everything else stays and stays readable (R155). -/
def execHalt (s : State) : Host.Outcome State Fault Refusal := .next s.halt

end Sys2Proof.Machine
end

