-- ==== Sys2Proof/Machine/LoadStore.lean ====
section
/-!
DEFINITION. The meanings of LOAD and STORE (spec/42_load_store.md R140 to R143).

Neither touches a flag, `pc`, `halted` or `sp` (R143).
-/

namespace Sys2Proof.Machine

/-- LOAD: the word at the effective address, with every behaviour of the bus (bounds report, device side
effects), to `rd`. The base is read before `rd` is written (R140). At 0xF001, while the console can give
neither a character nor the end of input, the step is not enabled (R58, R117, log 1). -/
def execLoad (rd rs1 : Nat) (offset6 : Int) (s : State) : Host.Outcome State Fault Refusal :=
  match memRead (effAddr s rs1 offset6) s with
  | some (v, t) => .next (t.writeReg rd v)
  | none => .fault .consoleInputWait

/-- STORE: the word of `rd` to the effective address, with every behaviour of the bus (R141). -/
def execStore (rd rs1 : Nat) (offset6 : Int) (s : State) : Host.Outcome State Fault Refusal :=
  .next (memWrite (effAddr s rs1 offset6) (s.readReg rd) s)

end Sys2Proof.Machine
end

