-- ==== Sys2Proof/Machine/Dispatch.lean ====
section
/-!
DEFINITION. One arm per instruction: the single exhaustive dispatch of spec/40_step_cycle.md R113, which equals
the two-stage dispatch of R112.
-/

namespace Sys2Proof.Machine

def exec (i : Instr) (s : State) : Host.Outcome State Fault Refusal :=
  match i with
  | .nop => Sys2Proof.Machine.execNop s
  | .add rd rs1 rs2 => Sys2Proof.Machine.execAdd rd rs1 rs2 s
  | .addi rd imm9 => Sys2Proof.Machine.execAddi rd imm9 s
  | .sub rd rs1 rs2 => Sys2Proof.Machine.execSub rd rs1 rs2 s
  | .subi rd imm9 => Sys2Proof.Machine.execSubi rd imm9 s
  | .and rd rs1 rs2 => Sys2Proof.Machine.execAnd rd rs1 rs2 s
  | .or rd rs1 rs2 => Sys2Proof.Machine.execOr rd rs1 rs2 s
  | .xor rd rs1 rs2 => Sys2Proof.Machine.execXor rd rs1 rs2 s
  | .load rd rs1 offset6 => Sys2Proof.Machine.execLoad rd rs1 offset6 s
  | .store rd rs1 offset6 => Sys2Proof.Machine.execStore rd rs1 offset6 s
  | .loadi rd imm9 => Sys2Proof.Machine.execLoadi rd imm9 s
  | .branch imm12 => Sys2Proof.Machine.execBranch imm12 s
  | .beq imm12 => Sys2Proof.Machine.execBeq imm12 s
  | .bne imm12 => Sys2Proof.Machine.execBne imm12 s
  | .blt imm12 => Sys2Proof.Machine.execBlt imm12 s
  | .halt => Sys2Proof.Machine.execHalt s

end Sys2Proof.Machine
end

