-- ==== Sys2Proof/Machine/Control.lean ====
section
/-!
DEFINITION. The parts of one fetch-decode-execute cycle (spec/40_step_cycle.md R110, R112), and where a word is
placed so that the next step fetches it.
-/

namespace Sys2Proof.Machine

/-- Fetch: `MemRead(pc, 2)` with every behaviour of the bus, then `ir <- w` and the advance of `pc` by 2 modulo
2^16, before execute (R16, R17, R19, R65, R110; D1, D7). No answer is the wait of R58. -/
def fetch (s : State) : Option (Word × State) :=
  match memRead s.pc s with
  | some (w, t) => some (w, (t.setIr w).setPc (s.pc + 2))
  | none => none

/-- `Execute(d)`, the Control Unit's execute stage on a decoded record whose word was fetched from
`fetchedFrom`: the instruction of its opcode, or the unknown-opcode stop (R112, R156). -/
def execute (fetchedFrom : Word) (d : Decoded) (s : State) : Host.Outcome State Fault Refusal :=
  match d.toInstr with
  | .ok i => exec i s
  | .error _ => .next (raiseUnknownOpcode d.opcode fetchedFrom s)

/-- `cycle <- cycle + 1`, the last line of a step that completes (R28, R110, D6). -/
def countCycle : Host.Outcome State Fault Refusal → Host.Outcome State Fault Refusal
  | .next s => .next s.tick
  | .fault f => .fault f
  | .refused r => .refused r

/-- The lines of `Step()` after its test of `halted` (R110). A wait for console input leaves the state as it
was before the step (R58, D11). -/
def fetchExecute (s : State) : Host.Outcome State Fault Refusal :=
  match fetch s with
  | some (w, t) => countCycle (execute s.pc (decodeFields w) t)
  | none => .fault .consoleInputWait

/-- The address a placed instruction word is fetched from: `pc` where plain storage backs the fetch, else
LOAD_BASE (the bus answers a fetch anywhere else itself, R65). Log 24. -/
def fetchAddr (s : State) : Word := if isPlain s.pc then s.pc else BitVec.ofNat 16 Config.loadBase

/-- `s` with `w` where the next step fetches, and running. Log 24. -/
def placeWord (s : State) (w : Word) : State :=
  { s with pc := fetchAddr s, halted := false, mem := s.mem.storeWord (fetchAddr s) w }

end Sys2Proof.Machine
end

