-- ==== Sys2Proof/Machine/Step.lean ====
section
/-!
DEFINITION. `Step()`: the only transition of the core (spec/40_step_cycle.md R110).
-/

namespace Sys2Proof.Machine

/-- One step. On a halted core nothing changes (R27, R110, D25). -/
def step (s : State) : Host.Outcome State Fault Refusal := if s.halted then .next s else fetchExecute s

/-- `s` with the instruction of the table whose bits are `w` stored where `step` fetches next. Log 24. -/
def State.withFetchWord (s : State) (nbits w : Nat) : State := placeWord s (tableWord nbits w)

end Sys2Proof.Machine
end

