-- ==== Sys2Proof/Machine/Driver.lean ====
section
/-!
DEFINITION. The host's side of the core: what the outside may do between steps (spec/70_reset_and_hazards.md R190
to R195, spec/40_step_cycle.md R111). No function here is part of a step.
-/

namespace Sys2Proof.Machine

/-- `Reset()` of a running instance: every element at its reset value. `cin` belongs to the host and is not
reset (R35, R190); the draw counter is the model's, and reset gives back no value already drawn (log 25). -/
def resetCore (s : State) : State := { State.reset with cin := s.cin, draws := s.draws }

/-- The bytes of a buffer from address `a` upwards (R192). -/
def Memory.writeBytes : Memory → Nat → List Byte → Memory
  | m, _, [] => m
  | m, a, b :: bs => Memory.writeBytes (m.writeByte a b) (a + 1) bs

/-- `Load(buf, at)`: directly into the array, no device and no report; a buffer that would pass 0x10000 is
refused whole (R192, D23). -/
def loadBuffer (buf : List Byte) (base : Nat) (s : State) : Option State :=
  if base + buf.length > Config.addrSpace then none else some (s.setMem (s.mem.writeBytes base buf))

/-- Steps 1 to 3 of R193: reset, then load at LOAD_BASE; the console stays attached. -/
def boot (program : List Byte) (s : State) : Option State := loadBuffer program Config.loadBase (resetCore s)

/-- The host supplies characters of console input (R194). -/
def supplyInput (chars : List Byte) (s : State) : State :=
  s.setCin { s.cin with pending := s.cin.pending ++ chars }

/-- The host closes the console input (R58, R194). -/
def endInput (s : State) : State := s.setCin { s.cin with ended := true }

/-- A byte of memory for display: from the array, past the devices (R67, R194). -/
def displayByte (s : State) (a : Nat) : Byte := s.mem.readByte a

/-- What a bounded `Run()` came to (R111, U7). -/
inductive RunResult where
  /-- `halted` is set: the run has ended (R116). -/
  | ended (s : State)
  /-- The fuel is used up and the core still runs: neither success nor a fault (U7). -/
  | outOfFuel (s : State)
  /-- The core holds at a read of the console input in state `s`: it has not ended (R116). -/
  | waiting (s : State)
  /-- An instruction of the run has no meaning in this model; no instruction is so today. -/
  | refused (r : Refusal)
  deriving DecidableEq, Repr

/-- `Run()`: step until halted, under fuel (R111). -/
def run : Nat → State → RunResult
  | 0, s => if s.halted then .ended s else .outOfFuel s
  | n + 1, s =>
    if s.halted then .ended s
    else
      match step s with
      | .next t => run n t
      | .fault .consoleInputWait => .waiting s
      | .refused r => .refused r

end Sys2Proof.Machine
end

