-- ==== Sys2Proof/Machine/Assembler.lean ====
section
/-!
DEFINITION. The assembler's source syntax, its two passes and the bytes it emits (spec/30_encoding.md R84 to R95).

The assembler is no part of the core (R2); it is in scope "as far as a reader needs ... to write and read
programs" (R3). Source text is a list of characters. What the spec leaves silent here is logs 28 and 33, what
it decides is log 26.
-/

namespace Sys2Proof.Machine

/-- Source text, a token of it, or a label name. -/
abbrev Text := List Char

/-- ASM_MAX_BYTES and ASM_MAX_LABELS: the source names both limits and gives neither a number (R5, R95, D22),
so they are arguments. Log 27. -/
structure AsmLimits where
  maxBytes : Nat
  maxLabels : Nat
  deriving DecidableEq, Repr

/-- What an assembly can fail with (R95, D19, D20). -/
inductive AsmErrorKind where
  /-- A branch operand that is no defined label, a number included (R92, D21). DESIGN CHOICE, log 33: a branch
  without an operand too, for which the spec names no error. -/
  | undefinedLabel
  /-- Invalid or missing register operand, or a second register different from the first (R88, R84, D19). -/
  | badRegister
  /-- No mnemonic of the 16 (R85). -/
  | unknownMnemonic
  /-- The output would pass ASM_MAX_BYTES. -/
  | programTooLong
  /-- More labels than ASM_MAX_LABELS. -/
  | tooManyLabels
  /-- Invalid or missing immediate operand. DESIGN CHOICE, log 28. -/
  | badImmediate
  /-- Tokens left over after the operands (R87, D20). -/
  | extraTokens
  /-- A `:` with no name before it (D21 wants a non-empty name). DESIGN CHOICE, log 28. -/
  | emptyLabel
  deriving DecidableEq, Repr

/-- An error with its line context: the 1-based line number and the offending text (R95). -/
structure AsmError where
  line : Nat
  text : Text
  kind : AsmErrorKind
  deriving DecidableEq, Repr

/-! ## Characters, lines and tokens -/

/-- White space inside a line (R86, R87). -/
def isBlank (c : Char) : Bool := c = ' ' || c = '\t' || c = '\r'

/-- What separates two tokens: white space, comma, brackets and `+` (R87, D20). -/
def isDelimiter (c : Char) : Bool := isBlank c || c = ',' || c = '[' || c = ']' || c = '+'

/-- The pieces of a text between the characters that `p` picks. -/
def splitAtChars (p : Char → Bool) : Text → List Text
  | [] => [[]]
  | c :: cs =>
    if p c then [] :: splitAtChars p cs
    else
      match splitAtChars p cs with
      | piece :: pieces => (c :: piece) :: pieces
      | [] => [[c]]

/-- The tokens of an instruction; "any run" of delimiters separates two of them (R87). -/
def tokensOf (t : Text) : List Text := (splitAtChars isDelimiter t).filter (fun piece => !piece.isEmpty)

/-- A text without the white space around it (R86). -/
def trimBlanks (t : Text) : Text := ((t.dropWhile isBlank).reverse.dropWhile isBlank).reverse

/-- A letter in upper case: mnemonics and registers match case-insensitively (R87, R88). -/
def upperChar (c : Char) : Char :=
  if 'a'.toNat ≤ c.toNat ∧ c.toNat ≤ 'z'.toNat then Char.ofNat (c.toNat - 32) else c

/-- A source line: the label it defines and the text of its instruction, each where there is one (R86). -/
structure SourceLine where
  label : Option Text
  body : Option Text
  deriving DecidableEq, Repr

/-- The instruction text of a trimmed remainder. -/
def bodyOf (t : Text) : Option Text := if t.isEmpty then none else some t

/-- Comment off, white space off, label off (R86). DESIGN CHOICE, log 33: in a line with several colons the first
ends the label, and the rest, later colons included, is the instruction. -/
def readLine (line : Text) : SourceLine :=
  let text := trimBlanks (line.takeWhile (fun c => c ≠ ';'))
  if text.contains ':' then
    { label := some (trimBlanks (text.takeWhile (fun c => c ≠ ':')))
      body := bodyOf (trimBlanks ((text.dropWhile (fun c => c ≠ ':')).drop 1)) }
  else { label := none, body := bodyOf text }

/-! ## Operands -/

/-- `R<0-7>`, case-insensitive; any other form is none (R88). -/
def registerOf (t : Text) : Option Nat :=
  match t with
  | [r, d] =>
    if upperChar r = 'R' ∧ '0'.toNat ≤ d.toNat ∧ d.toNat ≤ '7'.toNat then some (d.toNat - '0'.toNat) else none
  | _ => none

/-- The value of a digit, up to hexadecimal. -/
def digitOf (c : Char) : Option Nat :=
  let u := (upperChar c).toNat
  if '0'.toNat ≤ u ∧ u ≤ '9'.toNat then some (u - '0'.toNat)
  else if 'A'.toNat ≤ u ∧ u ≤ 'F'.toNat then some (u - 'A'.toNat + 10)
  else none

/-- The digits of a number after those that made `acc`. -/
def digitsFrom (base acc : Nat) : Text → Option Nat
  | [] => some acc
  | c :: cs =>
    match digitOf c with
    | some d => if d < base then digitsFrom base (acc * base + d) cs else none
    | none => none

/-- A non-empty run of digits. -/
def digitsOf (base : Nat) (t : Text) : Option Nat := if t.isEmpty then none else digitsFrom base 0 t

/-- A `0x`/`0X` hexadecimal literal or a decimal literal, the decimal possibly negative (R89). DESIGN CHOICE, log
33: a hexadecimal literal has no sign. -/
def literalOf : Text → Option Int
  | '0' :: 'x' :: ds => (digitsOf 16 ds).map Int.ofNat
  | '0' :: 'X' :: ds => (digitsOf 16 ds).map Int.ofNat
  | '-' :: ds => (digitsOf 10 ds).map (fun n => -(Int.ofNat n))
  | ds => (digitsOf 10 ds).map Int.ofNat

/-- An immediate: an optional leading `#`, then a literal (R89). -/
def immediateOf : Text → Option Int
  | '#' :: t => literalOf t
  | t => literalOf t

/-- The next operand, a register. -/
def takeRegister : List Text → Except AsmErrorKind (Nat × List Text)
  | t :: ts =>
    match registerOf t with
    | some i => .ok (i, ts)
    | none => .error .badRegister
  | [] => .error .badRegister

/-- The next operand, an immediate. -/
def takeImmediate : List Text → Except AsmErrorKind (Int × List Text)
  | t :: ts =>
    match immediateOf t with
    | some v => .ok (v, ts)
    | none => .error .badImmediate
  | [] => .error .badImmediate

/-- The symbol table: label names with their addresses, in the order defined (R91). -/
abbrev Labels := List (Text × Nat)

/-- The address of a label: compared exactly, first match wins (R93, D21). -/
def Labels.addressOf : Labels → Text → Option Nat
  | [], _ => none
  | (name, a) :: rest, t => if name = t then some a else Labels.addressOf rest t

/-- The next operand, a label (R92). DESIGN CHOICE, log 33: an operand that looks like a number is looked up like
any other name, so it is refused unless a label of that very name is defined; and a missing operand is an
undefined label. -/
def takeLabel (labels : Labels) : List Text → Except AsmErrorKind (Nat × List Text)
  | t :: ts =>
    match labels.addressOf t with
    | some a => .ok (a, ts)
    | none => .error .undefinedLabel
  | [] => .error .undefinedLabel

/-- Nothing may be left over (R87, D20). -/
def finished (i : Instr) : List Text → Except AsmErrorKind Instr
  | [] => .ok i
  | _ :: _ => .error .extraTokens

/-! ## Instructions -/

/-- `OP` (R84). -/
def operandsN (i : Instr) (ops : List Text) : Except AsmErrorKind Instr := finished i ops

/-- `OP Rd, Rs1, Rs2` (R84). -/
def operandsR (mk : Nat → Nat → Nat → Instr) (ops : List Text) : Except AsmErrorKind Instr := do
  let (rd, ops) ← takeRegister ops
  let (rs1, ops) ← takeRegister ops
  let (rs2, ops) ← takeRegister ops
  finished (mk rd rs1 rs2) ops

/-- `OP Rd, imm` (R84). -/
def operandsI (mk : Nat → Int → Instr) (ops : List Text) : Except AsmErrorKind Instr := do
  let (rd, ops) ← takeRegister ops
  let (imm, ops) ← takeImmediate ops
  finished (mk rd imm) ops

/-- `OP Rd, imm` or `OP Rd, Rd, imm`, the second only with both registers the same (R84, D19, C3). DESIGN CHOICE,
log 33: three operands or more are read as the second form. -/
def operandsII (mk : Nat → Int → Instr) (ops : List Text) : Except AsmErrorKind Instr := do
  match ops with
  | first :: second :: third :: rest =>
    let (rd, _) ← takeRegister [first]
    let (same, _) ← takeRegister [second]
    if rd = same then operandsI mk (first :: third :: rest) else .error .badRegister
  | _ => operandsI mk ops

/-- `OP Rd, [Rs + off]` or `OP Rd, [Rs]`, with `off` 0 when omitted (R84). -/
def operandsM (mk : Nat → Nat → Int → Instr) (ops : List Text) : Except AsmErrorKind Instr := do
  let (rd, ops) ← takeRegister ops
  let (rs1, ops) ← takeRegister ops
  if ops.isEmpty then finished (mk rd rs1 0) ops
  else
    let (off, ops) ← takeImmediate ops
    finished (mk rd rs1 off) ops

/-- The immediate of a branch at `here` to a label at `target`: `label_address - (current_address + 2)`
(R92). -/
def branchImm (here target : Nat) : Int := Int.ofNat target - Int.ofNat (here + 2)

/-- `OP label` (R84, R92). -/
def operandsB (labels : Labels) (here : Nat) (mk : Int → Instr) (ops : List Text) : Except AsmErrorKind Instr := do
  let (target, ops) ← takeLabel labels ops
  finished (mk (branchImm here target)) ops

/-- The mnemonics, by opcode (R78, R84). -/
def mnemonics : List String :=
  ["NOP", "ADD", "ADDI", "SUB", "SUBI", "AND", "OR", "XOR", "LOAD", "STORE", "LOADI", "BRANCH", "BEQ", "BNE", "BLT",
    "HALT"]

/-- The opcode of a mnemonic, matched case-insensitively (R87). -/
def opcodeOf (t : Text) : Option Nat := mnemonics.findIdx? (fun m => m.toList = t.map upperChar)

/-- The instruction of a line's tokens, at address `here` (R84). DESIGN CHOICE, log 33: a line of delimiters alone
has no token and so no known mnemonic. -/
def readInstr (labels : Labels) (here : Nat) : List Text → Except AsmErrorKind Instr
  | [] => .error .unknownMnemonic
  | t :: ops =>
    match opcodeOf t with
    | some 0x0 => operandsN .nop ops
    | some 0x1 => operandsR .add ops
    | some 0x2 => operandsII .addi ops
    | some 0x3 => operandsR .sub ops
    | some 0x4 => operandsII .subi ops
    | some 0x5 => operandsR .and ops
    | some 0x6 => operandsR .or ops
    | some 0x7 => operandsR .xor ops
    | some 0x8 => operandsM .load ops
    | some 0x9 => operandsM .store ops
    | some 0xA => operandsI .loadi ops
    | some 0xB => operandsB labels here .branch ops
    | some 0xC => operandsB labels here .beq ops
    | some 0xD => operandsB labels here .bne ops
    | some 0xE => operandsB labels here .blt ops
    | some 0xF => operandsN .halt ops
    | _ => .error .unknownMnemonic

/-! ## The two passes -/

/-- Pass 1: the address of every label. A line that holds an instruction, even one that will fail to parse,
takes 2 bytes; any other takes none (R90, R91). `line` counts from 1. -/
def pass1 (lim : AsmLimits) : List Text → (line here : Nat) → Labels → Except AsmError Labels
  | [], _, _, labels => .ok labels
  | text :: rest, line, here, labels =>
    let next := if (readLine text).body.isSome then here + 2 else here
    match (readLine text).label with
    | none => pass1 lim rest (line + 1) next labels
    | some name =>
      if name.isEmpty then .error { line := line, text := text, kind := .emptyLabel }
      else if labels.length ≥ lim.maxLabels then .error { line := line, text := text, kind := .tooManyLabels }
      else pass1 lim rest (line + 1) next (labels ++ [(name, here)])

/-- Pass 2: one word per instruction line, low byte then high byte; the first error aborts the whole assembly
(R91, R94, R95). -/
def pass2 (lim : AsmLimits) (labels : Labels) : List Text → (line here : Nat) → Except AsmError (List Byte)
  | [], _, _ => .ok []
  | text :: rest, line, here =>
    match (readLine text).body with
    | none => pass2 lim labels rest (line + 1) here
    | some body =>
      match readInstr labels here (tokensOf body) with
      | .error kind => .error { line := line, text := text, kind := kind }
      | .ok i =>
        if here + 2 > lim.maxBytes then .error { line := line, text := text, kind := .programTooLong }
        else
          match pass2 lim labels rest (line + 1) (here + 2) with
          | .error e => .error e
          | .ok bytes => .ok (bytesOfWord (encode i) ++ bytes)

/-- Source text to the raw binary loaded at address 0x0000 (R90, R91, R94). -/
def assemble (lim : AsmLimits) (source : Text) : Except AsmError (List Byte) :=
  let lines := splitAtChars (fun c => c = '\n') source
  match pass1 lim lines 1 0 [] with
  | .error e => .error e
  | .ok labels => pass2 lim labels lines 1 0

end Sys2Proof.Machine
end

