-- ==== Sys2Proof/Safety.lean ====
section
/-!
DEFINITION. The terms claims use: what holds in every state, when a run has ended well, what an instruction leaves
unchanged, and which states a program cannot tell apart.
-/

namespace Sys2Proof.Machine

/-! ## States -/

/-- The invariant of the state (R36 items 2, 3 and 6, and the canonical form of memory): V is 0, `sp` is
SP_RESET, and no byte outside the address space is listed. -/
def State.Inv (s : State) : Prop :=
  s.flags.overflow = false ∧ s.sp = Config.spReset ∧ s.mem.wf

/-- The run has ended and no condition was reported on the way: what a claim about a clean run asks for
(R116, R185). -/
def State.EndedClean (s : State) : Prop := s.halted = true ∧ s.diag = []

/-- The core waits for console input when it reads 0xF001: no character is pending and the input has not
ended (R58). -/
def State.ConsoleBlocked (s : State) : Prop := s.cin.pending = [] ∧ s.cin.ended = false

/-! ## Frames: what `t` leaves as it was in `s` -/

/-- Every general register, and every index outside the bank. -/
def SameRegs (s t : State) : Prop := ∀ k, t.readReg k = s.readReg k

/-- Every byte of the backing array. -/
def SameMemory (s t : State) : Prop := ∀ a, t.mem.readByte a = s.mem.readByte a

/-- The device state, the console streams, the reports and the draw counter. -/
def SameDevices (s t : State) : Prop :=
  t.timerEnabled = s.timerEnabled ∧ t.timerReg = s.timerReg ∧ t.cout = s.cout ∧ t.cin = s.cin ∧ t.diag = s.diag ∧
    t.draws = s.draws

/-- What no instruction but HALT writes: `ir`, `sp`, `halted`, `cycle` and `debug`. -/
def SameControl (s t : State) : Prop :=
  t.ir = s.ir ∧ t.sp = s.sp ∧ t.halted = s.halted ∧ t.cycle = s.cycle ∧ t.debug = s.debug

/-- Register `rd` becomes the number `r`, and no other register changes; an index outside the bank discards the
write (R12, R13). -/
def WritesReg (rd r : Nat) (s t : State) : Prop :=
  (rd < 8 → (t.readReg rd).toNat = r) ∧ ∀ k, k ≠ rd ∨ 8 ≤ rd → t.readReg k = s.readReg k

/-- The flags `UpdateZN` leaves for the result `r`: Z and N from it, C and V as they were (R22). -/
def zn (r : Nat) (s : State) : Flags where
  zero := decide (r = 0)
  negative := decide (2 ^ 15 ≤ r)
  carry := s.flags.carry
  overflow := s.flags.overflow

/-- An ALU instruction completes with `r` in `rd` and the flags `f`, and leaves everything else. -/
def CompletesAlu (i : Instr) (s : State) (rd r : Nat) (f : Flags) : Prop :=
  ∃ t, exec i s = .next t ∧ WritesReg rd r s t ∧ t.flags = f ∧ t.pc = s.pc ∧ SameControl s t ∧ SameMemory s t ∧
    SameDevices s t

/-- An instruction completes with `target` in `pc` and leaves everything else, the flags included (R161). -/
def CompletesPc (i : Instr) (s : State) (target : Nat) : Prop :=
  ∃ t, exec i s = .next t ∧ t.pc.toNat = target ∧ t.flags = s.flags ∧ SameRegs s t ∧ SameControl s t ∧
    SameMemory s t ∧ SameDevices s t

/-- Every word whose opcode is `op` decodes to `f` of it (R71, R72, R78). -/
def EncodedAs (op : Nat) (f : Word → Instr) : Prop :=
  ∀ w, unsignedField w 12 4 = op → decodeWord w = .ok (f w)

/-- `signed_len` of the low `len` bits of a word: the number they denote in two's complement (R8). -/
def signedField (w : Word) (len : Nat) : Int :=
  if w.getLsbD (len - 1) then (unsignedField w 0 len : Int) - 2 ^ len else unsignedField w 0 len

/-! ## What a program cannot tell apart -/

/-- Two states that agree in everything an instruction can read: registers, `pc`, Z, N, `halted`, memory, the
console input and the next timer draw. They may differ in C, V, `ir`, `sp`, `cycle`, `debug`, the timer
device, the console output and the reports (R19, R20, R23, R24, R25, R28, R29, R31, R32). -/
def SameVisible (s t : State) : Prop :=
  s.regs = t.regs ∧ s.pc = t.pc ∧ s.flags.zero = t.flags.zero ∧ s.flags.negative = t.flags.negative ∧
    s.halted = t.halted ∧ s.mem = t.mem ∧ s.cin = t.cin ∧ s.draws = t.draws

/-- Two outcomes of steps from `s` and from `t` are alike: both next states a program cannot tell apart, with the
same new console output and the same new reports, or the same stop. -/
def SameOutcome (s t : State) : Host.Outcome State Fault Refusal → Host.Outcome State Fault Refusal → Prop
  | .next s', .next t' =>
    SameVisible s' t' ∧ (∃ out, s'.cout = s.cout ++ out ∧ t'.cout = t.cout ++ out) ∧
      ∃ rep, s'.diag = s.diag ++ rep ∧ t'.diag = t.diag ++ rep
  | .fault f, .fault g => f = g
  | .refused q, .refused r => q = r
  | _, _ => False

end Sys2Proof.Machine
end

