-- ==== Sys2Proof/Certificates/Slice0/Obligations.lean ====
section
/-!
DEFINITION. What is claimed of the model, from the numbered rules of spec/. Nothing is proved here.

Where a clause rests on a decision the spec marks as its own (`D<n>` of spec/92_eei_decisions.md), the docstring
names the decision and its log entry.
-/

open Sys2Proof Sys2Proof.Machine

/-! ## Encoding -/

/-- R83, both directions: encoding then decoding recovers the instruction with every operand; decoding then
encoding gives the word with its ignored bits cleared. -/
def Obligations.DecodeEncodeRoundTrip : Prop :=
  (∀ i : Instr, i.wellFormed = true → decodeWord (encode i) = .ok i) ∧
    ∀ w : Word, ∃ i, decodeWord w = .ok i ∧ i.wellFormed = true ∧ encode i = w &&& usedBits (unsignedField w 12 4)

/-- R80 (the spec's derivation) with R70: each of the 65536 words is an instruction, the one of its opcode, with
operands that fit; two bytes of a list are always one, the bytes after them are left, and fewer than two
are rejected by name. -/
def Obligations.EveryWordIsAnInstruction : Prop :=
  (∀ w : Word, ∃ i, decodeWord w = .ok i ∧ i.opcode = unsignedField w 12 4 ∧ i.wellFormed = true) ∧
    (∀ (lo hi : Byte) (rest : List Byte), ∃ i, decode (lo :: hi :: rest) = .ok (i, rest) ∧
      decodeWord (wordOfBytes lo hi) = .ok i) ∧
    ∀ bytes : List Byte, bytes.length < 2 → decode bytes = .error .truncated

/-- R79 (the spec's derivation): two words that agree in the bits their format uses are the same instruction. -/
def Obligations.IgnoredBitsAreIgnored : Prop :=
  ∀ w v : Word, w &&& usedBits (unsignedField w 12 4) = v &&& usedBits (unsignedField w 12 4) →
    decodeWord w = decodeWord v

/-- Words written out from the spec's encodings (95 sections 2 to 5) decode to what they stand for: every
format, some with `pad` or unused bits set, both ends of `imm12` and the lower ends of `imm9` and `offset6`. -/
def Obligations.SampleWordsDecode : Prop :=
  decodeWord 0x0ABC = .ok .nop ∧ decodeWord 0x1057 = .ok (.add 0 1 2) ∧ decodeWord 0x3AE0 = .ok (.sub 5 3 4) ∧
    decodeWord 0x2601 = .ok (.addi 3 1) ∧ decodeWord 0x4100 = .ok (.subi 0 (-256)) ∧
    decodeWord 0xAF2C = .ok (.loadi 7 (-212)) ∧ decodeWord 0x807E = .ok (.load 0 1 (-2)) ∧
    decodeWord 0x9042 = .ok (.store 0 1 2) ∧ decodeWord 0x8020 = .ok (.load 0 0 (-32)) ∧
    decodeWord 0xB7FF = .ok (.branch 2047) ∧ decodeWord 0xB800 = .ok (.branch (-2048)) ∧
    decodeWord 0xCFF8 = .ok (.beq (-8)) ∧ decodeWord 0xDFFA = .ok (.bne (-6)) ∧ decodeWord 0xE002 = .ok (.blt 2) ∧
    decodeWord 0xFFFF = .ok .halt

/-- R74, R75, R76: each immediate keeps its own bits and fills every higher bit with its sign bit, and denotes
the number the rule gives. -/
def Obligations.ImmediatesSignExtend : Prop :=
  ∀ w : Word,
    (∀ k, k < 16 →
      (decodeFields w).imm9.getLsbD k = (if k < 9 then w.getLsbD k else w.getLsbD 8) ∧
      (decodeFields w).imm12.getLsbD k = (if k < 12 then w.getLsbD k else w.getLsbD 11) ∧
      (decodeFields w).offset6.getLsbD k = (if k < 6 then w.getLsbD k else w.getLsbD 5)) ∧
    (decodeFields w).imm9.toInt = signedField w 9 ∧ (decodeFields w).imm12.toInt = signedField w 12 ∧
    (decodeFields w).offset6.toInt = signedField w 6

/-- R82 (`pad` and unused bits 0: decision D16, log 18): the five encoders as the shifts, ors and remainders of
the rule, for register indices in 0..7 and any integer immediate, which is truncated to its field and not
rejected. -/
def Obligations.EncoderFollowsTheFormulas : Prop :=
  ∀ op rd rs1 rs2 : Nat, ∀ imm : Int, op < 16 → rd < 8 → rs1 < 8 → rs2 < 8 →
    (encodeR op rd rs1 rs2).toNat = op <<< 12 ||| rd <<< 9 ||| rs1 <<< 6 ||| rs2 <<< 3 ∧
    (encodeI op rd imm).toNat = op <<< 12 ||| rd <<< 9 ||| (imm % 2 ^ 9).toNat ∧
    (encodeM op rd rs1 imm).toNat = op <<< 12 ||| rd <<< 9 ||| rs1 <<< 6 ||| (imm % 2 ^ 6).toNat ∧
    (encodeB op imm).toNat = op <<< 12 ||| (imm % 2 ^ 12).toNat ∧
    (encodeN op).toNat = op <<< 12

/-! ## The register bank -/

/-- R12, R13: a read is the register, or 0 outside 0..7; a write changes that register alone, or nothing outside
0..7. Nothing else of the state changes and nothing is reported. -/
def Obligations.RegisterBankContract : Prop :=
  (∀ (s : State) (i : Nat) (h : i < 8), s.readReg i = s.regs[i]) ∧
    (∀ (s : State) (i : Nat), 8 ≤ i → s.readReg i = 0) ∧
    (∀ (s : State) (i : Nat) (v : Word), i < 8 → (s.writeReg i v).readReg i = v) ∧
    (∀ (s : State) (i k : Nat) (v : Word), k ≠ i → (s.writeReg i v).readReg k = s.readReg k) ∧
    (∀ (s : State) (i : Nat) (v : Word), 8 ≤ i → s.writeReg i v = s) ∧
    ∀ (s : State) (i : Nat) (v : Word), { s.writeReg i v with regs := s.regs } = s

/-! ## The ALU -/

/-- R120. ADD: the sum modulo 2^16, Z and N from it, C the carry out of bit 15; V and everything else as before.
It completes in every state. -/
def Obligations.AddResult : Prop :=
  EncodedAs 0x1 (fun w => .add (unsignedField w 9 3) (unsignedField w 6 3) (unsignedField w 3 3)) ∧
    ∀ (rd rs1 rs2 : Nat) (s : State),
      CompletesAlu (.add rd rs1 rs2) s rd (((s.readReg rs1).toNat + (s.readReg rs2).toNat) % 2 ^ 16)
        { zn (((s.readReg rs1).toNat + (s.readReg rs2).toNat) % 2 ^ 16) s with
          carry := decide (0xFFFF < (s.readReg rs1).toNat + (s.readReg rs2).toNat) }

/-- R121, decisions D4 (rd is the source) and D5 (C kept), log 17. ADDI: rd plus the immediate modulo 2^16, Z and
N from it. -/
def Obligations.AddiResult : Prop :=
  EncodedAs 0x2 (fun w => .addi (unsignedField w 9 3) (signedField w 9)) ∧
    ∀ (rd : Nat) (imm9 : Int) (s : State),
      CompletesAlu (.addi rd imm9) s rd ((((s.readReg rd).toNat + imm9) % 2 ^ 16).toNat)
        (zn ((((s.readReg rd).toNat + imm9) % 2 ^ 16).toNat) s)

/-- R122, decision D4 (rs1 is the minuend), log 17. SUB: the difference modulo 2^16, Z and N from it; C and V are
kept. -/
def Obligations.SubResult : Prop :=
  EncodedAs 0x3 (fun w => .sub (unsignedField w 9 3) (unsignedField w 6 3) (unsignedField w 3 3)) ∧
    ∀ (rd rs1 rs2 : Nat) (s : State),
      CompletesAlu (.sub rd rs1 rs2) s rd
        ((((s.readReg rs1).toNat - (s.readReg rs2).toNat : Int) % 2 ^ 16).toNat)
        (zn ((((s.readReg rs1).toNat - (s.readReg rs2).toNat : Int) % 2 ^ 16).toNat) s)

/-- R123, decision D4 (rd is the source), log 17. SUBI: rd minus the immediate modulo 2^16, Z and N from it; C and
V are kept. -/
def Obligations.SubiResult : Prop :=
  EncodedAs 0x4 (fun w => .subi (unsignedField w 9 3) (signedField w 9)) ∧
    ∀ (rd : Nat) (imm9 : Int) (s : State),
      CompletesAlu (.subi rd imm9) s rd ((((s.readReg rd).toNat - imm9) % 2 ^ 16).toNat)
        (zn ((((s.readReg rd).toNat - imm9) % 2 ^ 16).toNat) s)

/-- R124. AND: the bitwise and, Z and N from it; C and V are kept. -/
def Obligations.AndResult : Prop :=
  EncodedAs 0x5 (fun w => .and (unsignedField w 9 3) (unsignedField w 6 3) (unsignedField w 3 3)) ∧
    ∀ (rd rs1 rs2 : Nat) (s : State),
      CompletesAlu (.and rd rs1 rs2) s rd ((s.readReg rs1).toNat &&& (s.readReg rs2).toNat)
        (zn ((s.readReg rs1).toNat &&& (s.readReg rs2).toNat) s)

/-- R125. OR: the bitwise or, Z and N from it; C and V are kept. -/
def Obligations.OrResult : Prop :=
  EncodedAs 0x6 (fun w => .or (unsignedField w 9 3) (unsignedField w 6 3) (unsignedField w 3 3)) ∧
    ∀ (rd rs1 rs2 : Nat) (s : State),
      CompletesAlu (.or rd rs1 rs2) s rd ((s.readReg rs1).toNat ||| (s.readReg rs2).toNat)
        (zn ((s.readReg rs1).toNat ||| (s.readReg rs2).toNat) s)

/-- R126. XOR: the bitwise exclusive-or, Z and N from it; C and V are kept. -/
def Obligations.XorResult : Prop :=
  EncodedAs 0x7 (fun w => .xor (unsignedField w 9 3) (unsignedField w 6 3) (unsignedField w 3 3)) ∧
    ∀ (rd rs1 rs2 : Nat) (s : State),
      CompletesAlu (.xor rd rs1 rs2) s rd ((s.readReg rs1).toNat ^^^ (s.readReg rs2).toNat)
        (zn ((s.readReg rs1).toNat ^^^ (s.readReg rs2).toNat) s)

/-- R127. LOADI: the immediate as a 16-bit vector; no flag is written, whatever the value loaded. -/
def Obligations.LoadiResult : Prop :=
  EncodedAs 0xA (fun w => .loadi (unsignedField w 9 3) (signedField w 9)) ∧
    ∀ (rd : Nat) (imm9 : Int) (s : State),
      CompletesAlu (.loadi rd imm9) s rd ((imm9 % 2 ^ 16).toNat) s.flags

/-- R128 item 7 (the spec's derivation), for every number and not only the encodable ones: adding k and
subtracting -k are the same instruction in effect. -/
def Obligations.AddiIsSubiOfNegation : Prop :=
  ∀ (rd : Nat) (k : Int) (s : State), exec (.addi rd k) s = exec (.subi rd (-k)) s

/-- R26 (decision D15, log 16), R23 (decision D5, log 17) and R24: over all instructions, Z and N change only in
the seven that compute, C only in ADD, V in none. -/
def Obligations.FlagsHaveTheirWriters : Prop :=
  ∀ (i : Instr) (s t : State), exec i s = .next t →
    (i.setsZN = false → t.flags.zero = s.flags.zero ∧ t.flags.negative = s.flags.negative) ∧
    (i.setsCarry = false → t.flags.carry = s.flags.carry) ∧ t.flags.overflow = s.flags.overflow

/-- R15: over all instructions, no register but the destination changes, and an instruction without a
destination changes none. -/
def Obligations.OnlyTheDestinationChanges : Prop :=
  ∀ (i : Instr) (s t : State) (k : Nat), exec i s = .next t → i.dest ≠ some k → t.readReg k = s.readReg k

/-! ## Load and store -/

/-- R142: the effective address is the base plus the signed byte displacement modulo 2^16, neither LOAD nor
STORE modifies the base register (LOAD does when the base is its destination), and the only address that
fails the bounds check is 0xFFFF. -/
def Obligations.EffectiveAddressWraps : Prop :=
  (∀ (s : State) (rs1 : Nat) (off : Int),
    ((effAddr s rs1 off).toNat : Int) = ((s.readReg rs1).toNat + off) % 2 ^ 16) ∧
    (∀ (rd rs1 : Nat) (off : Int) (s t : State), exec (.store rd rs1 off) s = .next t → t.readReg rs1 = s.readReg rs1) ∧
    (∀ (rd rs1 : Nat) (off : Int) (s t : State), exec (.load rd rs1 off) s = .next t → rs1 ≠ rd →
      t.readReg rs1 = s.readReg rs1) ∧
    ∀ a : Word, outOfBounds a = true ↔ a = 0xFFFF

/-- R140 with R44 (no flag: decision D15, log 16; any alignment: decision D14, log 15). LOAD from plain storage
completes with the little-endian word of the two bytes there; everything else as before. -/
def Obligations.LoadFromStorage : Prop :=
  EncodedAs 0x8 (fun w => .load (unsignedField w 9 3) (unsignedField w 6 3) (signedField w 6)) ∧
    ∀ (rd rs1 : Nat) (off : Int) (s : State), isPlain (effAddr s rs1 off) = true →
      ∃ t, exec (.load rd rs1 off) s = .next t ∧
        WritesReg rd (256 * (s.mem.readByte ((effAddr s rs1 off).toNat + 1)).toNat +
          (s.mem.readByte (effAddr s rs1 off).toNat).toNat) s t ∧
        t.flags = s.flags ∧ t.pc = s.pc ∧ SameControl s t ∧ SameMemory s t ∧ SameDevices s t

/-- R47, and what it makes of LOAD and STORE (R140, R141): the one address that fails is 0xFFFF; the read answers
0 and reads no byte, the write writes no byte, each appends one record and the instruction completes. The kind
and the address in the record are decision D13 (R171, log 14), and that LOAD and STORE keep the flags is decision
D15 (log 16). -/
def Obligations.BoundsViolationContinues : Prop :=
  (∀ s : State, memRead 0xFFFF s = some (0, { s with diag := s.diag ++ [.boundsViolation .read 0xFFFF] })) ∧
    (∀ (s : State) (v : Word), memWrite 0xFFFF v s = { s with diag := s.diag ++ [.boundsViolation .write 0xFFFF] }) ∧
    (∀ (a v : Word) (s t : State), a ≠ 0xFFFF → memRead a s = some (v, t) → t.diag = s.diag) ∧
    (∀ (a v : Word) (s : State), a ≠ 0xFFFF → (memWrite a v s).diag = s.diag) ∧
    (∀ (rd rs1 : Nat) (off : Int) (s : State), effAddr s rs1 off = 0xFFFF →
      exec (.load rd rs1 off) s =
        .next (({ s with diag := s.diag ++ [.boundsViolation .read 0xFFFF] } : State).writeReg rd 0)) ∧
    ∀ (rd rs1 : Nat) (off : Int) (s : State), effAddr s rs1 off = 0xFFFF →
      exec (.store rd rs1 off) s = .next { s with diag := s.diag ++ [.boundsViolation .write 0xFFFF] }

/-- R50 to R54 through LOAD (R140; decisions D9, D11, D12, logs 12, 13, 3): the next character and its consumption,
0 at the end of input, the free timer value, 0 at every other device address; in each case nothing else but `rd`
changes. That LOAD keeps the flags is decision D15 (log 16). The timer value is the free `Config.timerDraw`, so the
clause holds whatever it is. -/
def Obligations.LoadFromDevices : Prop :=
  (∀ (rd rs1 : Nat) (off : Int) (s : State) (c : Byte) (rest : List Byte), effAddr s rs1 off = 0xF001 →
    s.cin.pending = c :: rest →
    exec (.load rd rs1 off) s = .next (({ s with cin := { s.cin with pending := rest } } : State).writeReg rd (c.setWidth 16))) ∧
    (∀ (rd rs1 : Nat) (off : Int) (s : State), effAddr s rs1 off = 0xF001 → s.cin.pending = [] →
      s.cin.ended = true → exec (.load rd rs1 off) s = .next (s.writeReg rd 0)) ∧
    (∀ (rd rs1 : Nat) (off : Int) (s : State), effAddr s rs1 off = 0xF003 →
      exec (.load rd rs1 off) s =
        .next (({ s with draws := s.draws + 1 } : State).writeReg rd (Config.timerDraw s.draws))) ∧
    ∀ (rd rs1 : Nat) (off : Int) (s : State), 0xF000 ≤ (effAddr s rs1 off).toNat → (effAddr s rs1 off).toNat ≤ 0xF0FF →
      effAddr s rs1 off ≠ 0xF001 → effAddr s rs1 off ≠ 0xF003 →
      exec (.load rd rs1 off) s = .next (s.writeReg rd 0)

/-- R58, R117 (decision D11, log 1): a LOAD of 0xF001 waits, and answers no next state, while no character is
pending and the input has not ended. -/
def Obligations.LoadWaitsForInput : Prop :=
  ∀ (rd rs1 : Nat) (off : Int) (s : State), effAddr s rs1 off = 0xF001 → s.ConsoleBlocked →
    exec (.load rd rs1 off) s = .fault .consoleInputWait

/-- R141 with R45 (no flag: decision D15, log 16). STORE to plain storage completes with the low byte of the
register at the effective address and the high byte after it, every other byte and everything else as
before. That the array is canonical is part of `State.Inv`. -/
def Obligations.StoreToStorage : Prop :=
  EncodedAs 0x9 (fun w => .store (unsignedField w 9 3) (unsignedField w 6 3) (signedField w 6)) ∧
    ∀ (rd rs1 : Nat) (off : Int) (s : State), isPlain (effAddr s rs1 off) = true →
      ∃ t, exec (.store rd rs1 off) s = .next t ∧
        (s.mem.wf → (t.mem.readByte (effAddr s rs1 off).toNat).toNat = (s.readReg rd).toNat % 256 ∧
          (t.mem.readByte ((effAddr s rs1 off).toNat + 1)).toNat = (s.readReg rd).toNat / 256) ∧
        (∀ b, b ≠ (effAddr s rs1 off).toNat → b ≠ (effAddr s rs1 off).toNat + 1 →
          t.mem.readByte b = s.mem.readByte b) ∧
        SameRegs s t ∧ t.flags = s.flags ∧ t.pc = s.pc ∧ SameControl s t ∧ SameDevices s t

/-- R49: a STORE at 0xF000 appends the low byte of the register to the console output, discards the high byte
and changes no byte of memory and nothing else. That STORE keeps the flags is decision D15 (R141, log 16). -/
def Obligations.StoreToConsole : Prop :=
  ∀ (rd rs1 : Nat) (off : Int) (s : State), effAddr s rs1 off = 0xF000 →
    exec (.store rd rs1 off) s = .next { s with cout := s.cout ++ [loByte (s.readReg rd)] }

/-- R51 to R54 through STORE (R141; decision D10, log 12): timer control becomes "not zero", the timer register
takes the word, and every other device address accepts the write without any effect. No byte of memory changes. That
STORE keeps the flags is decision D15 (log 16). -/
def Obligations.StoreToOtherDevices : Prop :=
  (∀ (rd rs1 : Nat) (off : Int) (s : State), effAddr s rs1 off = 0xF002 →
    exec (.store rd rs1 off) s = .next { s with timerEnabled := decide (s.readReg rd ≠ 0) }) ∧
    (∀ (rd rs1 : Nat) (off : Int) (s : State), effAddr s rs1 off = 0xF003 →
      exec (.store rd rs1 off) s = .next { s with timerReg := s.readReg rd }) ∧
    ∀ (rd rs1 : Nat) (off : Int) (s : State), effAddr s rs1 off = 0xF001 ∨
      (0xF004 ≤ (effAddr s rs1 off).toNat ∧ (effAddr s rs1 off).toNat ≤ 0xF0FF) →
      exec (.store rd rs1 off) s = .next s

/-- R143 (the flags: decision D15, log 16): neither LOAD nor STORE touches a flag, `pc`, `halted` or `sp`; LOAD
changes no byte of memory, STORE no register. -/
def Obligations.LoadAndStoreFrame : Prop :=
  (∀ (rd rs1 : Nat) (off : Int) (s t : State), exec (.load rd rs1 off) s = .next t →
    t.flags = s.flags ∧ t.pc = s.pc ∧ SameControl s t ∧ SameMemory s t ∧ t.timerEnabled = s.timerEnabled ∧
      t.timerReg = s.timerReg ∧ t.cout = s.cout) ∧
    ∀ (rd rs1 : Nat) (off : Int) (s t : State), exec (.store rd rs1 off) s = .next t →
      t.flags = s.flags ∧ t.pc = s.pc ∧ SameControl s t ∧ SameRegs s t ∧ t.cin = s.cin ∧ t.draws = s.draws

/-- R59 (the spec's derivation): a word read of plain storage returns the word last written there. -/
def Obligations.ReadAfterWrite : Prop :=
  ∀ (s : State) (a v : Word), s.mem.wf → isPlain a = true →
    memRead a (memWrite a v s) = some (v, memWrite a v s)

/-- R46 (decision D14, log 15): a word read between two stored words takes the high byte of the first as its low
byte and the low byte of the second as its high byte, and nothing is reported. -/
def Obligations.MisalignedReadStraddles : Prop :=
  ∀ (s : State) (a v u : Word), s.mem.wf → isPlain a = true → isPlain (a + 1) = true → isPlain (a + 2) = true →
    memRead (a + 1) (memWrite (a + 2) u (memWrite a v s)) =
      some (wordOfBytes (hiByte v) (loByte u), memWrite (a + 2) u (memWrite a v s))

/-- R62 (the spec's derivation; the fetch: decision D7, log 10; the wrap of `pc`: D1, log 8; the place of the `ir`
write: D25, log 20): after a STORE to plain storage, a fetch from that address gets the stored word. -/
def Obligations.FetchSeesTheStore : Prop :=
  ∀ (rd rs1 : Nat) (off : Int) (s t : State), s.mem.wf → isPlain (effAddr s rs1 off) = true →
    exec (.store rd rs1 off) s = .next t → t.pc = effAddr s rs1 off →
    fetch t = some (s.readReg rd, { t with ir := s.readReg rd, pc := t.pc + 2 })

/-- R55 (the spec's derivation), over every step: the backing bytes 0xF001..0xF0FF never change, and byte 0xF000
changes only in a STORE whose effective address is 0xEFFF. -/
def Obligations.DeviceBytesNeverChange : Prop :=
  ∀ s t : State, step s = .next t →
    (∀ a, 0xF001 ≤ a → a ≤ 0xF0FF → t.mem.readByte a = s.mem.readByte a) ∧
    (t.mem.readByte 0xF000 ≠ s.mem.readByte 0xF000 →
      ∃ w u rd rs1 off, fetch s = some (w, u) ∧ decodeWord w = .ok (.store rd rs1 off) ∧ effAddr u rs1 off = 0xEFFF)

/-! ## Control flow -/

/-- R150. NOP: no effect at all, under any value of its twelve unused bits, which the encoder writes as 0. The step
around it, wherever its word was fetched from, writes `ir`, advances `pc` by 2 and counts, and no more. -/
def Obligations.NopResult : Prop :=
  EncodedAs 0x0 (fun _ => .nop) ∧ encode .nop = 0x0000 ∧ (∀ s : State, exec .nop s = .next s) ∧
    ∀ (s u : State) (w : Word), s.halted = false → fetch s = some (w, u) → unsignedField w 12 4 = 0x0 →
      u.ir = w ∧ u.pc = s.pc + 2 ∧ step s = .next { u with cycle := s.cycle + 1 }

/-- R151 (the wrap modulo 2^16: decision D1, log 8; no flag: decision D15, log 16). BRANCH: `pc`, already the
address after the branch, plus the signed byte count; nothing else changes and nothing is saved. -/
def Obligations.BranchResult : Prop :=
  EncodedAs 0xB (fun w => .branch (signedField w 12)) ∧
    ∀ (imm12 : Int) (s : State), CompletesPc (.branch imm12) s (((s.pc.toNat + imm12) % 2 ^ 16).toNat)

/-- R152 (D1 and D15 as for BRANCH). BEQ: as BRANCH when Z = 1, else it falls through. -/
def Obligations.BeqResult : Prop :=
  EncodedAs 0xC (fun w => .beq (signedField w 12)) ∧
    ∀ (imm12 : Int) (s : State),
      CompletesPc (.beq imm12) s (if s.flags.zero = true then ((s.pc.toNat + imm12) % 2 ^ 16).toNat else s.pc.toNat)

/-- R153 (D1 and D15 as for BRANCH). BNE: as BRANCH when Z = 0, else it falls through. -/
def Obligations.BneResult : Prop :=
  EncodedAs 0xD (fun w => .bne (signedField w 12)) ∧
    ∀ (imm12 : Int) (s : State),
      CompletesPc (.bne imm12) s (if s.flags.zero = false then ((s.pc.toNat + imm12) % 2 ^ 16).toNat else s.pc.toNat)

/-- R154 (D1 and D15 as for BRANCH). BLT: as BRANCH when N = 1, else it falls through; N is the only flag that
counts. -/
def Obligations.BltResult : Prop :=
  EncodedAs 0xE (fun w => .blt (signedField w 12)) ∧
    ∀ (imm12 : Int) (s : State),
      CompletesPc (.blt imm12) s
        (if s.flags.negative = true then ((s.pc.toNat + imm12) % 2 ^ 16).toNat else s.pc.toNat)

/-- R155. HALT: `halted` is set, nothing else changes, and every later step does nothing until `Reset()`. The step
around it leaves `pc` after the HALT and is counted. -/
def Obligations.HaltResult : Prop :=
  EncodedAs 0xF (fun _ => .halt) ∧ encode .halt = 0xF000 ∧
    (∀ s : State, exec .halt s = .next { s with halted := true } ∧
      step { s with halted := true } = .next { s with halted := true } ∧ (resetCore s).halted = false) ∧
    ∀ (s u : State) (w : Word), s.halted = false → fetch s = some (w, u) → unsignedField w 12 4 = 0xF →
      u.pc = s.pc + 2 ∧ step s = .next { u with halted := true, cycle := s.cycle + 1 }

/-- R161: branches change nothing but `pc`, and one that is not taken has exactly the effect of a NOP; a
conditional one that is taken behaves exactly like BRANCH (R152). -/
def Obligations.BranchesChangeOnlyPc : Prop :=
  (∀ (imm : Int) (s t : State), exec (.branch imm) s = .next t ∨ exec (.beq imm) s = .next t ∨
    exec (.bne imm) s = .next t ∨ exec (.blt imm) s = .next t → { t with pc := s.pc } = s) ∧
    (∀ (imm : Int) (s : State), s.flags.zero = false → exec (.beq imm) s = exec .nop s) ∧
    (∀ (imm : Int) (s : State), s.flags.zero = true → exec (.bne imm) s = exec .nop s) ∧
    (∀ (imm : Int) (s : State), s.flags.negative = false → exec (.blt imm) s = exec .nop s) ∧
    (∀ (imm : Int) (s : State), s.flags.zero = true → exec (.beq imm) s = exec (.branch imm) s) ∧
    (∀ (imm : Int) (s : State), s.flags.zero = false → exec (.bne imm) s = exec (.branch imm) s) ∧
    ∀ (imm : Int) (s : State), s.flags.negative = true → exec (.blt imm) s = exec (.branch imm) s

/-- R25, R154 (SUB's operand order: decision D4, log 17): a BLT after a SUB is taken exactly when the wrapped
difference has bit 15 set; that is the signed comparison when the true difference fits 16 bits, and the opposite
of it when it does not. -/
def Obligations.BltAfterSub : Prop :=
  ∀ (rd rs1 rs2 : Nat) (imm : Int) (s : State), ∃ t u, exec (.sub rd rs1 rs2) s = .next t ∧
    exec (.blt imm) t = .next u ∧
    u.pc = (if 2 ^ 15 ≤ (s.readReg rs1 - s.readReg rs2).toNat then branchTarget s imm else s.pc) ∧
    (2 ^ 15 ≤ (s.readReg rs1 - s.readReg rs2).toNat ↔
      if -(2 ^ 15 : Int) ≤ (s.readReg rs1).toInt - (s.readReg rs2).toInt ∧
        (s.readReg rs1).toInt - (s.readReg rs2).toInt < 2 ^ 15
      then (s.readReg rs1).toInt < (s.readReg rs2).toInt
      else ¬ (s.readReg rs1).toInt < (s.readReg rs2).toInt)

/-- R92 with R157 (the wrap: decision D1, log 8): the word the assembler emits for a branch at `here` to a label
at `target`, within the reach of 12 bits, takes the core to the label. -/
def Obligations.AssembledBranchReachesItsLabel : Prop :=
  ∀ (here target : Nat) (s : State), -2048 ≤ branchImm here target → branchImm here target ≤ 2047 →
    s.pc = BitVec.ofNat 16 (here + 2) →
    ∃ i t, decodeWord (encode (.branch (branchImm here target))) = .ok i ∧ exec i s = .next t ∧
      t.pc = BitVec.ofNat 16 target

/-- R156 (the reported address: decision D13, log 14): the Control Unit answers a record whose opcode is 16 or
more with one report and the halt, and changes nothing else; no instruction word reaches it (R80). -/
def Obligations.UnknownOpcodeStops : Prop :=
  (∀ (a : Word) (d : Decoded) (s : State), 16 ≤ d.opcode →
    execute a d s = .next { s with diag := s.diag ++ [.unknownOpcode d.opcode a], halted := true }) ∧
    ∀ (a w : Word) (s : State), ∃ i, decodeWord w = .ok i ∧ execute a (decodeFields w) s = exec i s

/-! ## The step -/

/-- R110 (decisions D6, D7, D25, logs 9, 10, 20): where the two bytes at `pc`, in plain storage, decode to an
instruction, a step of a running core is that instruction's meaning on the state with `ir` written and `pc`
advanced by 2, and then the cycle is counted. -/
def Obligations.StepRunsTheDecodedInstruction : Prop :=
  ∀ (s : State) (i : Instr), s.halted = false → isPlain s.pc = true →
    decodeWord (wordOfBytes (s.mem.readByte s.pc.toNat) (s.mem.readByte (s.pc.toNat + 1))) = .ok i →
    step s = countCycle (exec i { s with
      ir := wordOfBytes (s.mem.readByte s.pc.toNat) (s.mem.readByte (s.pc.toNat + 1)), pc := s.pc + 2 })

/-- R65 (decision D7, log 10): steps whose fetch is not from plain storage. At 0xFFFF a report and a NOP; at
0xF001 a character consumed and executed as a NOP, a NOP at the end of input, or the wait; at 0xF003 the word
drawn; at every other device address a NOP. What else it rests on: the wait answered as `consoleInputWait` (DEDUCED,
D11, log 1), the character and the end of input (D11, log 13), the record (D13, log 14), the 0 read at 0xF000 (D9, log
12), the free draw and its counter (D12, log 3), the count (D6, log 9), the wrap of `pc` (D1, log 8), the `ir` write
(D25, log 20), and that NOP keeps the flags (D15, log 16). -/
def Obligations.FetchOutsideStorage : Prop :=
  (∀ s : State, s.halted = false → s.pc = 0xFFFF →
    step s = .next { s with ir := 0, pc := 1, cycle := s.cycle + 1,
                            diag := s.diag ++ [.boundsViolation .read 0xFFFF] }) ∧
    (∀ (s : State) (c : Byte) (rest : List Byte), s.halted = false → s.pc = 0xF001 → s.cin.pending = c :: rest →
      step s = .next { s with ir := c.setWidth 16, pc := 0xF003, cycle := s.cycle + 1,
                              cin := { s.cin with pending := rest } }) ∧
    (∀ s : State, s.halted = false → s.pc = 0xF001 → s.cin.pending = [] → s.cin.ended = true →
      step s = .next { s with ir := 0, pc := 0xF003, cycle := s.cycle + 1 }) ∧
    (∀ s : State, s.halted = false → s.pc = 0xF001 → s.ConsoleBlocked → step s = .fault .consoleInputWait) ∧
    (∀ s : State, s.halted = false → s.pc = 0xF003 →
      ∃ i, decodeWord (Config.timerDraw s.draws) = .ok i ∧
        step s = countCycle (exec i { s with ir := Config.timerDraw s.draws, pc := 0xF005, draws := s.draws + 1 })) ∧
    ∀ s : State, s.halted = false → 0xF000 ≤ s.pc.toNat → s.pc.toNat ≤ 0xF0FF → s.pc ≠ 0xF001 → s.pc ≠ 0xF003 →
      step s = .next { s with ir := 0, pc := s.pc + 2, cycle := s.cycle + 1 }

/-- R27 (a step of a halted core: decision D25, log 20): HALT and the unknown-opcode stop set `halted`, no step
clears it, a step of a halted core changes nothing, `Run()` on it returns at once, nothing else ends a run, and
`Reset()` clears it. -/
def Obligations.HaltedFlag : Prop :=
  (∀ s : State, ∃ t, exec .halt s = .next t ∧ t.halted = true) ∧
    (∀ (op : Nat) (a : Word) (s : State), (raiseUnknownOpcode op a s).halted = true) ∧
    (∀ s t : State, s.halted = true → step s = .next t → t.halted = true) ∧
    (∀ s : State, s.halted = true → step s = .next s) ∧
    (∀ (n : Nat) (s : State), s.halted = true → run n s = .ended s) ∧
    (∀ (n : Nat) (s t : State), run n s = .ended t → t.halted = true) ∧
    ∀ s : State, (resetCore s).halted = false

/-- R116 with R80: the only step that sets `halted` is one that fetched a HALT word; it leaves `pc` after that
word, the word in `ir`, the cycle counted, and everything a program computed as it was. The wrap of `pc` is decision
D1 (log 8), the count D6 (log 9), the `ir` write D25 (log 20), and that HALT keeps the flags D15 (log 16). -/
def Obligations.OnlyHaltEndsTheRun : Prop :=
  ∀ s t : State, s.halted = false → step s = .next t → t.halted = true →
    decodeWord t.ir = .ok .halt ∧ t.pc = s.pc + 2 ∧ t.cycle = s.cycle + 1 ∧ SameRegs s t ∧ t.flags = s.flags ∧
      SameMemory s t ∧ t.diag = s.diag ∧ t.cout = s.cout

/-- R117: a step is never refused, and the only way it fails to complete is the wait for console input: a word
read of 0xF001, by the fetch or by a LOAD, with no character pending and the input not ended. That the wait is
answered as the fault `consoleInputWait` is the model's (DEDUCED from R58 and decision D11, log 1). -/
def Obligations.StepCompletesUnlessItWaits : Prop :=
  (∀ (s : State) (r : Refusal), step s ≠ .refused r) ∧
    ∀ (s : State) (f : Fault), step s = .fault f ↔
      s.halted = false ∧ s.ConsoleBlocked ∧
        (s.pc = 0xF001 ∨ ∃ w u rd rs1 off, fetch s = some (w, u) ∧ decodeWord w = .ok (.load rd rs1 off) ∧
          effAddr u rs1 off = 0xF001)

/-- R58 (decision D11, log 1): what lifts the wait is the host supplying a character or closing the input. -/
def Obligations.InputLiftsTheWait : Prop :=
  (∀ (s : State) (c : Byte) (cs : List Byte), ∃ t, step (supplyInput (c :: cs) s) = .next t) ∧
    ∀ s : State, ∃ t, step (endInput s) = .next t

/-- R28 (decision D6, log 9): every step of a running core counts one, and a step of a halted core none. -/
def Obligations.CycleCountsSteps : Prop :=
  ∀ s t : State, step s = .next t → t.cycle = (if s.halted = true then s.cycle else s.cycle + 1)

/-- R36 items 2, 3 and 6, from any state and not only from reset: every step keeps V = 0, `sp` = SP_RESET, and the
canonical form of memory, which lists no byte outside the address space. -/
def Obligations.StepKeepsTheInvariant : Prop :=
  ∀ s t : State, s.Inv → step s = .next t → t.Inv

/-- The invariant holds at reset (R35: decisions D2 and D3, logs 4, 5 and 7). -/
def Obligations.ResetMeetsTheInvariant : Prop :=
  State.reset.Inv ∧ ∀ s : State, (resetCore s).Inv

/-- R35, R190, R191. All of these are decisions D2, D3 and D24 of the spec (logs 4 to 7) but for `halted`, which
the source implies: the state `Reset()` leaves, and that it does not touch the console input. -/
def Obligations.ResetValues : Prop :=
  ∀ s : State, (∀ k, (resetCore s).readReg k = 0) ∧ (resetCore s).pc = 0 ∧ (resetCore s).ir = 0 ∧
    (resetCore s).sp = 0xFFFF ∧ (resetCore s).flags = ⟨false, false, false, false⟩ ∧ (resetCore s).halted = false ∧
    (resetCore s).cycle = 0 ∧ (resetCore s).debug = false ∧ (∀ a, (resetCore s).mem.readByte a = 0) ∧
    (resetCore s).timerEnabled = false ∧ (resetCore s).timerReg = 0 ∧ (resetCore s).cout = [] ∧
    (resetCore s).diag = [] ∧ (resetCore s).cin = s.cin ∧ State.reset = resetCore State.reset

/-- R32, R170, R175 and R49: a step appends at most one report, a bounds violation at 0xFFFF, and at most one
character, and removes neither. What the record holds is decision D13 (log 14). -/
def Obligations.ReportsAndOutputOnlyGrow : Prop :=
  ∀ s t : State, step s = .next t →
    (t.diag = s.diag ∨ ∃ k, t.diag = s.diag ++ [.boundsViolation k 0xFFFF]) ∧
    (t.cout = s.cout ∨ ∃ b, t.cout = s.cout ++ [b])

/-- R19, R20, R23, R24, R28, R29, R31, R32 together: C, V, `ir`, `sp`, `cycle`, `debug`, the timer device, the
console output and the reports influence nothing a program can observe. Two states that agree in the rest take
steps that agree in the rest, print the same and report the same, or stop alike. -/
def Obligations.UnseenStateNeverMatters : Prop :=
  ∀ s t : State, SameVisible s t → SameOutcome s t (step s) (step t)

/-- R29: the debug flag has no semantic effect: with it set or cleared, a step answers the same but for the flag
itself. -/
def Obligations.DebugHasNoEffect : Prop :=
  ∀ (s : State) (b : Bool),
    (∀ t, step s = .next t → step (s.setDebug b) = .next (t.setDebug b) ∧ t.debug = s.debug) ∧
    ∀ f, step s = .fault f → step (s.setDebug b) = .fault f

/-- R192 (decision D23, log 23): a buffer that fits goes to the array byte by byte, and nothing else changes, not
even through a device; one that would pass 0x10000 is refused whole. -/
def Obligations.LoadBufferFillsMemory : Prop :=
  (∀ (buf : List Byte) (base : Nat) (s : State), 0x10000 < base + buf.length → loadBuffer buf base s = none) ∧
    ∀ (buf : List Byte) (base : Nat) (s : State), base + buf.length ≤ 0x10000 →
      ∃ t, loadBuffer buf base s = some t ∧ { t with mem := s.mem } = s ∧
        (∀ a, a < base ∨ base + buf.length ≤ a → t.mem.readByte a = s.mem.readByte a) ∧
        (s.mem.wf → t.mem.wf ∧ ∀ (i : Nat) (h : i < buf.length), t.mem.readByte (base + i) = buf[i])

/-- R66, R191, R193 (decisions D2, D23, D24, logs 4, 6, 23): after `Reset()` and `Load(program, 0)` the first
step runs the word made of the program's first two bytes, low byte first. The step is R110's: the count is decision
D6 (log 9), the fetch through the bus D7 (log 10), the `ir` write D25 (log 20). -/
def Obligations.BootRunsTheFirstWord : Prop :=
  ∀ (lo hi : Byte) (rest : List Byte) (s : State), rest.length + 2 ≤ 0x10000 →
    ∃ t i, boot (lo :: hi :: rest) s = some t ∧ decodeWord (wordOfBytes lo hi) = .ok i ∧
      step t = countCycle (exec i { t with ir := wordOfBytes lo hi, pc := 2 })

/-- R111: `Run()` is `Step()` repeated until halted: on a halted core it returns at once, one more unit of fuel is
one more step of a running core, and a run that has ended ends the same with more fuel. The fuel, and so the last
clause, is the model's (DEDUCED, log 29). -/
def Obligations.RunRepeatsStep : Prop :=
  (∀ (n : Nat) (s : State), s.halted = true → run n s = .ended s) ∧
    (∀ (n : Nat) (s t : State), s.halted = false → step s = .next t → run (n + 1) s = run n t) ∧
    ∀ (n m : Nat) (s t : State), n ≤ m → run n s = .ended t → run m s = .ended t

/-- R94 with R95 (the limit is an argument: decision D22, log 27): an assembly that succeeds emits whole words and
stays within the limit. -/
def Obligations.AssemblerEmitsWholeWords : Prop :=
  ∀ (lim : AsmLimits) (source : Text) (bytes : List Byte), assemble lim source = .ok bytes →
    bytes.length % 2 = 0 ∧ bytes.length ≤ lim.maxBytes
end

