-- ==== Sys2Proof/Laws/Codec.lean ====
section
/-!
SUPPORT. The fields of a word, and what the decoder reads from an encoder's word.
-/

namespace Sys2Proof

/-! ## Fields -/

/-- A field of `len` bits is below `2 ^ len`. -/
theorem unsignedField_lt (w : Word) (lsb len : Nat) : unsignedField w lsb len < 2 ^ len :=
  (w.extractLsb' lsb len).isLt

/-- A field is the number its bits denote: shift right, keep `len` bits (R8, R71). -/
theorem unsignedField_eq (w : Word) (lsb len : Nat) : unsignedField w lsb len = w.toNat / 2 ^ lsb % 2 ^ len := by
  simp [unsignedField, BitVec.extractLsb'_toNat, Nat.shiftRight_eq_div_pow]

/-- A sign-extended field denotes the number its own bits denote in two's complement (R8, R73). -/
theorem sextField_toInt (w : Word) {len : Nat} (h : len ≤ 16) :
    (sextField w len).toInt = (w.extractLsb' 0 len).toInt := by
  simp [sextField, BitVec.toInt_signExtend_of_le h]

/-- The opcode of a decoded word is one of the 16 (R80). -/
theorem decodeFields_opcode_lt (w : Word) : (decodeFields w).opcode < 16 := unsignedField_lt w 12 4

/-- A record with one of the 16 opcodes is an instruction, of that opcode (R78). -/
theorem Decoded.toInstr_of_lt (d : Decoded) (h : d.opcode < 16) : ∃ i, d.toInstr = .ok i ∧ i.opcode = d.opcode := by
  obtain ⟨op, rd, rs1, rs2, imm9, imm12, offset6⟩ := d
  simp only at h
  interval_cases op <;> exact ⟨_, rfl, rfl⟩

/-- A record with any other opcode is none (R156). -/
theorem Decoded.toInstr_of_ge (d : Decoded) (h : 16 ≤ d.opcode) : d.toInstr = .error (.unknownOpcode d.opcode) := by
  unfold Decoded.toInstr
  split <;> first | omega | rfl

/-! ## Bytes and words -/

/-- The two bytes of a word make the word (R66). -/
theorem wordOfBytes_lo_hi (w : Word) : wordOfBytes (loByte w) (hiByte w) = w := by
  unfold wordOfBytes loByte hiByte
  apply BitVec.eq_of_toNat_eq
  have := w.isLt
  simp only [BitVec.toNat_append, BitVec.extractLsb'_toNat, Nat.shiftRight_eq_div_pow]
  rw [← Nat.shiftLeft_add_eq_or_of_lt (by omega), Nat.shiftLeft_eq]
  omega

@[simp] theorem loByte_wordOfBytes (lo hi : Byte) : loByte (wordOfBytes lo hi) = lo := by
  unfold wordOfBytes loByte
  rw [BitVec.extractLsb'_append_eq_of_add_le (by omega), BitVec.extractLsb'_eq_self]

@[simp] theorem hiByte_wordOfBytes (lo hi : Byte) : hiByte (wordOfBytes lo hi) = hi := by
  unfold wordOfBytes hiByte
  rw [BitVec.extractLsb'_append_eq_of_le (by omega), BitVec.extractLsb'_eq_self]

/-- Decoding the two bytes of a word, and what follows them (R66, R70). -/
theorem decode_bytesOfWord (w : Word) (rest : List Byte) :
    decode (bytesOfWord w ++ rest) =
      match decodeWord w with
      | .ok i => .ok (i, rest)
      | .error e => .error e := by
  cases h : decodeWord w <;> simp [decode, bytesOfWord, wordOfBytes_lo_hi, h]

/-! ## An encoder's word as a number -/

theorem encodeR_toNat (op rd rs1 rs2 : Nat) :
    (encodeR op rd rs1 rs2).toNat = op % 16 * 4096 + rd % 8 * 512 + rs1 % 8 * 64 + rs2 % 8 * 8 := by
  simp only [encodeR, BitVec.toNat_append, BitVec.toNat_ofNat]
  rw [← Nat.shiftLeft_add_eq_or_of_lt (by omega), ← Nat.shiftLeft_add_eq_or_of_lt (by omega),
    ← Nat.shiftLeft_add_eq_or_of_lt (by omega), ← Nat.shiftLeft_add_eq_or_of_lt (by omega)]
  simp only [Nat.shiftLeft_eq]
  omega

theorem encodeI_toNat (op rd : Nat) (imm : Int) :
    (encodeI op rd imm).toNat = op % 16 * 4096 + rd % 8 * 512 + (imm % 512).toNat := by
  simp only [encodeI, BitVec.toNat_append, BitVec.toNat_ofNat, BitVec.toNat_ofInt]
  rw [← Nat.shiftLeft_add_eq_or_of_lt (by omega), ← Nat.shiftLeft_add_eq_or_of_lt (by omega)]
  simp only [Nat.shiftLeft_eq]
  omega

theorem encodeM_toNat (op rd rs1 : Nat) (off : Int) :
    (encodeM op rd rs1 off).toNat = op % 16 * 4096 + rd % 8 * 512 + rs1 % 8 * 64 + (off % 64).toNat := by
  simp only [encodeM, BitVec.toNat_append, BitVec.toNat_ofNat, BitVec.toNat_ofInt]
  rw [← Nat.shiftLeft_add_eq_or_of_lt (by omega), ← Nat.shiftLeft_add_eq_or_of_lt (by omega),
    ← Nat.shiftLeft_add_eq_or_of_lt (by omega)]
  simp only [Nat.shiftLeft_eq]
  omega

theorem encodeB_toNat (op : Nat) (imm : Int) : (encodeB op imm).toNat = op % 16 * 4096 + (imm % 4096).toNat := by
  simp only [encodeB, BitVec.toNat_append, BitVec.toNat_ofNat, BitVec.toNat_ofInt]
  rw [← Nat.shiftLeft_add_eq_or_of_lt (by omega)]
  simp only [Nat.shiftLeft_eq]
  omega

theorem encodeN_toNat (op : Nat) : (encodeN op).toNat = op % 16 * 4096 := by
  simp only [encodeN, BitVec.toNat_append, BitVec.toNat_ofNat]
  rw [← Nat.shiftLeft_add_eq_or_of_lt (by omega)]
  simp only [Nat.shiftLeft_eq]
  omega

end Sys2Proof
end

