-- ==== Sys2Proof/Laws/Memory.lean ====
section
/-!
SUPPORT. The laws of the backing array: a byte read after a byte written, what a word write leaves alone, and
that every memory operation keeps the canonical form.
-/

namespace Sys2Proof.Machine

/-! ## Addresses -/

/-- The bounds check rejects the last address and no other (R47). -/
theorem outOfBounds_iff (a : Word) : outOfBounds a = true ↔ a = Config.lastAddr := by
  have hlast : Config.lastAddr.toNat = 0xFFFF := rfl
  have hlt := a.isLt
  rw [← BitVec.toNat_inj, hlast]
  simp only [outOfBounds, decide_eq_true_eq]
  simp only [Config.addrSpace]
  omega

theorem outOfBounds_eq_false {a : Word} : outOfBounds a = false ↔ a ≠ Config.lastAddr := by
  rw [← Bool.not_eq_true, outOfBounds_iff]

/-- The MMIO region is 0xF000..0xF0FF (R41). -/
theorem regionOf_eq_mmio (a : Word) : regionOf a = .mmio ↔ 0xF000 ≤ a.toNat ∧ a.toNat ≤ 0xF0FF := by
  have hfirst : Config.mmioFirst.toNat = 0xF000 := rfl
  have hlast : Config.mmioLast.toNat = 0xF0FF := rfl
  simp only [regionOf, BitVec.lt_def, BitVec.le_def, hfirst, hlast]
  split
  · simp; omega
  · split <;> simp <;> omega

/-- Plain storage: below or above the MMIO region, and not the last address (R47, R48). -/
theorem isPlain_iff (a : Word) :
    isPlain a = true ↔ a.toNat < 0xF000 ∨ (0xF0FF < a.toNat ∧ a.toNat < 0xFFFF) := by
  have hlt := a.isLt
  have hlast : a = Config.lastAddr ↔ a.toNat = 0xFFFF := by
    rw [← BitVec.toNat_inj]; simp [Config.lastAddr]
  simp only [isPlain, Bool.and_eq_true, Bool.not_eq_true', outOfBounds_eq_false, decide_eq_true_eq, ne_eq,
    regionOf_eq_mmio, hlast]
  omega

/-- Both bytes of a word at a plain address lie in the address space, at consecutive addresses (R47). -/
theorem toNat_succ_lt_of_isPlain {a : Word} (h : isPlain a = true) : a.toNat + 1 < Config.addrSpace := by
  rw [isPlain_iff] at h
  simp only [Config.addrSpace]; omega

/-! ## One byte -/

theorem Memory.readByte_place (m : Memory) (a b : Nat) (v : Byte) :
    (Memory.place m a v).readByte b = if a = b ∧ v ≠ Config.memReset then v else m.readByte b := by
  unfold Memory.place
  split
  · simp [*]
  · by_cases h : a = b <;> simp [Memory.readByte, *]

/-- An address below every listed one reads the reset value. -/
theorem Memory.readByte_of_lt {m : Memory} {a : Nat} (h : ∀ x ∈ m, a < x.1) : m.readByte a = Config.memReset := by
  induction m with
  | nil => rfl
  | cons x m ih =>
    have := h x (by simp)
    simp only [Memory.readByte]
    rw [if_neg (by omega)]
    exact ih (fun y hy => h y (by simp [hy]))

/-- A byte write leaves every other address alone, in any list. -/
theorem Memory.readByte_writeByte_of_ne (m : Memory) {a b : Nat} (v : Byte) (h : b ≠ a) :
    (m.writeByte a v).readByte b = m.readByte b := by
  induction m with
  | nil => simp [Memory.writeByte, Memory.readByte_place, Memory.readByte, Ne.symm h]
  | cons x m ih =>
    obtain ⟨k, c⟩ := x
    simp only [Memory.writeByte]
    split
    · simp [Memory.readByte_place, Ne.symm h]
    · split
      · next hk => subst hk; simp [Memory.readByte_place, Memory.readByte, Ne.symm h]
      · simp [Memory.readByte, ih]

/-- A byte read after a byte written there, in a canonical array. -/
theorem Memory.readByte_writeByte_self {m : Memory} (hm : m.wf) (a : Nat) (v : Byte) :
    (m.writeByte a v).readByte a = v := by
  induction m with
  | nil =>
    simp only [Memory.writeByte, Memory.readByte_place, Memory.readByte]
    by_cases hv : v = Config.memReset <;> simp [hv]
  | cons x m ih =>
    obtain ⟨k, c⟩ := x
    obtain ⟨hs, hb⟩ := hm
    rw [List.pairwise_cons] at hs
    have hm' : Memory.wf m := ⟨hs.2, fun y hy => hb y (by simp [hy])⟩
    simp only [Memory.writeByte]
    split
    · next hlt =>
      rw [Memory.readByte_place]
      by_cases hv : v = Config.memReset
      · simp only [hv, ne_eq, not_true_eq_false, and_false, if_false]
        apply Memory.readByte_of_lt
        intro y hy
        rcases List.mem_cons.1 hy with rfl | hy
        · exact hlt
        · exact Nat.lt_trans hlt (hs.1 y hy)
      · simp [hv]
    · split
      · next hk =>
        subst hk
        rw [Memory.readByte_place]
        by_cases hv : v = Config.memReset
        · simp only [hv, ne_eq, not_true_eq_false, and_false, if_false]
          exact Memory.readByte_of_lt (fun y hy => hs.1 y hy)
        · simp [hv]
      · next hne =>
        simp only [Memory.readByte]
        rw [if_neg (fun h => hne h.symm)]
        exact ih hm'

/-! ## The canonical form -/

theorem Memory.wf_nil : Memory.wf [] := by simp [Memory.wf]

/-- What a byte write lists: the written address, or an address listed before. -/
theorem Memory.mem_writeByte {m : Memory} {a : Nat} {v : Byte} {x : Host.Cell} (h : x ∈ m.writeByte a v) :
    (x.1 = a ∧ x.2 = v ∧ v ≠ Config.memReset) ∨ x ∈ m := by
  have place : ∀ n : Memory, x ∈ Memory.place n a v → (x.1 = a ∧ x.2 = v ∧ v ≠ Config.memReset) ∨ x ∈ n := by
    intro n hn
    unfold Memory.place at hn
    split at hn
    · exact .inr hn
    · rcases List.mem_cons.1 hn with rfl | hn
      · exact .inl ⟨rfl, rfl, by assumption⟩
      · exact .inr hn
  induction m with
  | nil => exact place [] h
  | cons y m ih =>
    obtain ⟨k, c⟩ := y
    simp only [Memory.writeByte] at h
    split at h
    · exact place _ h
    · split at h
      · exact (place _ h).imp_right (List.mem_cons_of_mem _)
      · rcases List.mem_cons.1 h with rfl | h
        · exact .inr (by simp)
        · exact (ih h).imp_right (List.mem_cons_of_mem _)

/-- A byte write inside the address space keeps the canonical form. -/
theorem Memory.wf_writeByte {m : Memory} (hm : m.wf) {a : Nat} (ha : a < Config.addrSpace) (v : Byte) :
    (m.writeByte a v).wf := by
  obtain ⟨hs, hb⟩ := hm
  refine ⟨?_, fun x hx => ?_⟩
  · induction m with
    | nil => unfold Memory.writeByte Memory.place; split <;> simp
    | cons y m ih =>
      obtain ⟨k, c⟩ := y
      rw [List.pairwise_cons] at hs
      simp only [Memory.writeByte, Memory.place]
      split
      · next hlt =>
        split
        · exact List.pairwise_cons.2 hs
        · refine List.pairwise_cons.2 ⟨fun z hz => ?_, List.pairwise_cons.2 hs⟩
          rcases List.mem_cons.1 hz with rfl | hz
          · exact hlt
          · exact Nat.lt_trans hlt (hs.1 z hz)
      · split
        · next hk =>
          subst hk
          split
          · exact hs.2
          · exact List.pairwise_cons.2 hs
        · refine List.pairwise_cons.2 ⟨fun z hz => ?_, ih hs.2 (fun z hz => hb z (by simp [hz]))⟩
          rcases Memory.mem_writeByte hz with ⟨rfl, -, -⟩ | hz
          · simp only; omega
          · exact hs.1 z hz
  · rcases Memory.mem_writeByte hx with ⟨rfl, rfl, hv⟩ | hx
    · exact ⟨ha, hv⟩
    · exact hb x hx

/-- A word write that passes the bounds check keeps the canonical form. -/
theorem Memory.wf_storeWord {m : Memory} (hm : m.wf) {a : Word} (ha : a.toNat + 1 < Config.addrSpace) (v : Word) :
    (m.storeWord a v).wf :=
  Memory.wf_writeByte (Memory.wf_writeByte hm (by omega) _) ha _

/-- A buffer that fits keeps the canonical form. -/
theorem Memory.wf_writeBytes (bs : List Byte) {m : Memory} (hm : m.wf) {a : Nat}
    (ha : a + bs.length ≤ Config.addrSpace) : (m.writeBytes a bs).wf := by
  induction bs generalizing m a with
  | nil => exact hm
  | cons b bs ih =>
    simp only [List.length_cons] at ha
    exact ih (Memory.wf_writeByte hm (by omega) b) (by omega)

/-! ## One word -/

/-- The low byte of a stored word, at the lower address (R45, R66). -/
theorem Memory.readByte_storeWord_lo {m : Memory} (hm : m.wf) (a v : Word) :
    (m.storeWord a v).readByte a.toNat = loByte v := by
  unfold Memory.storeWord
  rw [Memory.readByte_writeByte_of_ne _ _ (by omega), Memory.readByte_writeByte_self hm]

/-- The high byte of a stored word, at the higher address (R45, R66). -/
theorem Memory.readByte_storeWord_hi {m : Memory} (hm : m.wf) {a : Word} (ha : a.toNat < Config.addrSpace) (v : Word) :
    (m.storeWord a v).readByte (a.toNat + 1) = hiByte v := by
  unfold Memory.storeWord
  rw [Memory.readByte_writeByte_self (Memory.wf_writeByte hm ha _)]

/-- A word write leaves every byte but its two alone, in any list (R45). -/
theorem Memory.readByte_storeWord_of_ne (m : Memory) {a : Word} (v : Word) {b : Nat} (h : b ≠ a.toNat)
    (h' : b ≠ a.toNat + 1) : (m.storeWord a v).readByte b = m.readByte b := by
  unfold Memory.storeWord
  rw [Memory.readByte_writeByte_of_ne _ _ h', Memory.readByte_writeByte_of_ne _ _ h]

/-- A word read after a word written there (R59). -/
theorem Memory.loadWord_storeWord {m : Memory} (hm : m.wf) {a : Word} (ha : a.toNat < Config.addrSpace) (v : Word) :
    (m.storeWord a v).loadWord a = v := by
  unfold Memory.loadWord
  rw [Memory.readByte_storeWord_lo hm, Memory.readByte_storeWord_hi hm ha, wordOfBytes_lo_hi]

/-! ## A buffer -/

/-- Loading a buffer leaves the bytes outside it alone (R192). -/
theorem Memory.readByte_writeBytes_of_not (bs : List Byte) (m : Memory) {a b : Nat}
    (h : b < a ∨ a + bs.length ≤ b) : (m.writeBytes a bs).readByte b = m.readByte b := by
  induction bs generalizing m a with
  | nil => rfl
  | cons c bs ih =>
    simp only [List.length_cons] at h
    simp only [Memory.writeBytes]
    rw [ih _ (by omega), Memory.readByte_writeByte_of_ne _ _ (by omega)]

/-- Byte `i` of a loaded buffer stands at `base + i` (R192). -/
theorem Memory.readByte_writeBytes (bs : List Byte) {m : Memory} (hm : m.wf) {a : Nat}
    (ha : a + bs.length ≤ Config.addrSpace) {i : Nat} (hi : i < bs.length) :
    (m.writeBytes a bs).readByte (a + i) = bs[i] := by
  induction bs generalizing m a i with
  | nil => simp at hi
  | cons c bs ih =>
    simp only [List.length_cons] at ha hi
    have hm' := Memory.wf_writeByte hm (a := a) (by omega) c
    cases i with
    | zero =>
      simp only [Memory.writeBytes, Nat.add_zero, List.getElem_cons_zero]
      rw [Memory.readByte_writeBytes_of_not _ _ (by omega), Memory.readByte_writeByte_self hm]
    | succ i =>
      simp only [Memory.writeBytes, List.getElem_cons_succ]
      rw [show a + (i + 1) = a + 1 + i by omega]
      exact ih hm' (by omega) (by omega)

end Sys2Proof.Machine
end

