-- ==== Sys2Proof/Laws/State.lean ====
section
/-!
SUPPORT. What every update of the state does to every field: one lemma per field per update.

No later proof unfolds a record update.
-/

namespace Sys2Proof.Machine

variable (s : State)

/-! ## `State.setPc` -/

@[simp] theorem State.setPc_regs (v : Word) : (s.setPc v).regs = s.regs := rfl
@[simp] theorem State.setPc_pc (v : Word) : (s.setPc v).pc = v := rfl
@[simp] theorem State.setPc_ir (v : Word) : (s.setPc v).ir = s.ir := rfl
@[simp] theorem State.setPc_sp (v : Word) : (s.setPc v).sp = s.sp := rfl
@[simp] theorem State.setPc_flags (v : Word) : (s.setPc v).flags = s.flags := rfl
@[simp] theorem State.setPc_halted (v : Word) : (s.setPc v).halted = s.halted := rfl
@[simp] theorem State.setPc_cycle (v : Word) : (s.setPc v).cycle = s.cycle := rfl
@[simp] theorem State.setPc_debug (v : Word) : (s.setPc v).debug = s.debug := rfl
@[simp] theorem State.setPc_mem (v : Word) : (s.setPc v).mem = s.mem := rfl
@[simp] theorem State.setPc_timerEnabled (v : Word) : (s.setPc v).timerEnabled = s.timerEnabled := rfl
@[simp] theorem State.setPc_timerReg (v : Word) : (s.setPc v).timerReg = s.timerReg := rfl
@[simp] theorem State.setPc_cout (v : Word) : (s.setPc v).cout = s.cout := rfl
@[simp] theorem State.setPc_cin (v : Word) : (s.setPc v).cin = s.cin := rfl
@[simp] theorem State.setPc_diag (v : Word) : (s.setPc v).diag = s.diag := rfl
@[simp] theorem State.setPc_draws (v : Word) : (s.setPc v).draws = s.draws := rfl
@[simp] theorem State.setPc_readReg (v : Word) (k : Nat) : (s.setPc v).readReg k = s.readReg k := rfl

/-! ## `State.setIr` -/

@[simp] theorem State.setIr_regs (v : Word) : (s.setIr v).regs = s.regs := rfl
@[simp] theorem State.setIr_pc (v : Word) : (s.setIr v).pc = s.pc := rfl
@[simp] theorem State.setIr_ir (v : Word) : (s.setIr v).ir = v := rfl
@[simp] theorem State.setIr_sp (v : Word) : (s.setIr v).sp = s.sp := rfl
@[simp] theorem State.setIr_flags (v : Word) : (s.setIr v).flags = s.flags := rfl
@[simp] theorem State.setIr_halted (v : Word) : (s.setIr v).halted = s.halted := rfl
@[simp] theorem State.setIr_cycle (v : Word) : (s.setIr v).cycle = s.cycle := rfl
@[simp] theorem State.setIr_debug (v : Word) : (s.setIr v).debug = s.debug := rfl
@[simp] theorem State.setIr_mem (v : Word) : (s.setIr v).mem = s.mem := rfl
@[simp] theorem State.setIr_timerEnabled (v : Word) : (s.setIr v).timerEnabled = s.timerEnabled := rfl
@[simp] theorem State.setIr_timerReg (v : Word) : (s.setIr v).timerReg = s.timerReg := rfl
@[simp] theorem State.setIr_cout (v : Word) : (s.setIr v).cout = s.cout := rfl
@[simp] theorem State.setIr_cin (v : Word) : (s.setIr v).cin = s.cin := rfl
@[simp] theorem State.setIr_diag (v : Word) : (s.setIr v).diag = s.diag := rfl
@[simp] theorem State.setIr_draws (v : Word) : (s.setIr v).draws = s.draws := rfl
@[simp] theorem State.setIr_readReg (v : Word) (k : Nat) : (s.setIr v).readReg k = s.readReg k := rfl

/-! ## `State.setFlags` -/

@[simp] theorem State.setFlags_regs (f : Flags) : (s.setFlags f).regs = s.regs := rfl
@[simp] theorem State.setFlags_pc (f : Flags) : (s.setFlags f).pc = s.pc := rfl
@[simp] theorem State.setFlags_ir (f : Flags) : (s.setFlags f).ir = s.ir := rfl
@[simp] theorem State.setFlags_sp (f : Flags) : (s.setFlags f).sp = s.sp := rfl
@[simp] theorem State.setFlags_flags (f : Flags) : (s.setFlags f).flags = f := rfl
@[simp] theorem State.setFlags_halted (f : Flags) : (s.setFlags f).halted = s.halted := rfl
@[simp] theorem State.setFlags_cycle (f : Flags) : (s.setFlags f).cycle = s.cycle := rfl
@[simp] theorem State.setFlags_debug (f : Flags) : (s.setFlags f).debug = s.debug := rfl
@[simp] theorem State.setFlags_mem (f : Flags) : (s.setFlags f).mem = s.mem := rfl
@[simp] theorem State.setFlags_timerEnabled (f : Flags) : (s.setFlags f).timerEnabled = s.timerEnabled := rfl
@[simp] theorem State.setFlags_timerReg (f : Flags) : (s.setFlags f).timerReg = s.timerReg := rfl
@[simp] theorem State.setFlags_cout (f : Flags) : (s.setFlags f).cout = s.cout := rfl
@[simp] theorem State.setFlags_cin (f : Flags) : (s.setFlags f).cin = s.cin := rfl
@[simp] theorem State.setFlags_diag (f : Flags) : (s.setFlags f).diag = s.diag := rfl
@[simp] theorem State.setFlags_draws (f : Flags) : (s.setFlags f).draws = s.draws := rfl
@[simp] theorem State.setFlags_readReg (f : Flags) (k : Nat) : (s.setFlags f).readReg k = s.readReg k := rfl

/-! ## `State.halt` -/

@[simp] theorem State.halt_regs : s.halt.regs = s.regs := rfl
@[simp] theorem State.halt_pc : s.halt.pc = s.pc := rfl
@[simp] theorem State.halt_ir : s.halt.ir = s.ir := rfl
@[simp] theorem State.halt_sp : s.halt.sp = s.sp := rfl
@[simp] theorem State.halt_flags : s.halt.flags = s.flags := rfl
@[simp] theorem State.halt_halted : s.halt.halted = true := rfl
@[simp] theorem State.halt_cycle : s.halt.cycle = s.cycle := rfl
@[simp] theorem State.halt_debug : s.halt.debug = s.debug := rfl
@[simp] theorem State.halt_mem : s.halt.mem = s.mem := rfl
@[simp] theorem State.halt_timerEnabled : s.halt.timerEnabled = s.timerEnabled := rfl
@[simp] theorem State.halt_timerReg : s.halt.timerReg = s.timerReg := rfl
@[simp] theorem State.halt_cout : s.halt.cout = s.cout := rfl
@[simp] theorem State.halt_cin : s.halt.cin = s.cin := rfl
@[simp] theorem State.halt_diag : s.halt.diag = s.diag := rfl
@[simp] theorem State.halt_draws : s.halt.draws = s.draws := rfl
@[simp] theorem State.halt_readReg (k : Nat) : s.halt.readReg k = s.readReg k := rfl

/-! ## `State.tick` -/

@[simp] theorem State.tick_regs : s.tick.regs = s.regs := rfl
@[simp] theorem State.tick_pc : s.tick.pc = s.pc := rfl
@[simp] theorem State.tick_ir : s.tick.ir = s.ir := rfl
@[simp] theorem State.tick_sp : s.tick.sp = s.sp := rfl
@[simp] theorem State.tick_flags : s.tick.flags = s.flags := rfl
@[simp] theorem State.tick_halted : s.tick.halted = s.halted := rfl
@[simp] theorem State.tick_cycle : s.tick.cycle = s.cycle + 1 := rfl
@[simp] theorem State.tick_debug : s.tick.debug = s.debug := rfl
@[simp] theorem State.tick_mem : s.tick.mem = s.mem := rfl
@[simp] theorem State.tick_timerEnabled : s.tick.timerEnabled = s.timerEnabled := rfl
@[simp] theorem State.tick_timerReg : s.tick.timerReg = s.timerReg := rfl
@[simp] theorem State.tick_cout : s.tick.cout = s.cout := rfl
@[simp] theorem State.tick_cin : s.tick.cin = s.cin := rfl
@[simp] theorem State.tick_diag : s.tick.diag = s.diag := rfl
@[simp] theorem State.tick_draws : s.tick.draws = s.draws := rfl
@[simp] theorem State.tick_readReg (k : Nat) : s.tick.readReg k = s.readReg k := rfl

/-! ## `State.setDebug` -/

@[simp] theorem State.setDebug_regs (b : Bool) : (s.setDebug b).regs = s.regs := rfl
@[simp] theorem State.setDebug_pc (b : Bool) : (s.setDebug b).pc = s.pc := rfl
@[simp] theorem State.setDebug_ir (b : Bool) : (s.setDebug b).ir = s.ir := rfl
@[simp] theorem State.setDebug_sp (b : Bool) : (s.setDebug b).sp = s.sp := rfl
@[simp] theorem State.setDebug_flags (b : Bool) : (s.setDebug b).flags = s.flags := rfl
@[simp] theorem State.setDebug_halted (b : Bool) : (s.setDebug b).halted = s.halted := rfl
@[simp] theorem State.setDebug_cycle (b : Bool) : (s.setDebug b).cycle = s.cycle := rfl
@[simp] theorem State.setDebug_debug (b : Bool) : (s.setDebug b).debug = b := rfl
@[simp] theorem State.setDebug_mem (b : Bool) : (s.setDebug b).mem = s.mem := rfl
@[simp] theorem State.setDebug_timerEnabled (b : Bool) : (s.setDebug b).timerEnabled = s.timerEnabled := rfl
@[simp] theorem State.setDebug_timerReg (b : Bool) : (s.setDebug b).timerReg = s.timerReg := rfl
@[simp] theorem State.setDebug_cout (b : Bool) : (s.setDebug b).cout = s.cout := rfl
@[simp] theorem State.setDebug_cin (b : Bool) : (s.setDebug b).cin = s.cin := rfl
@[simp] theorem State.setDebug_diag (b : Bool) : (s.setDebug b).diag = s.diag := rfl
@[simp] theorem State.setDebug_draws (b : Bool) : (s.setDebug b).draws = s.draws := rfl
@[simp] theorem State.setDebug_readReg (b : Bool) (k : Nat) : (s.setDebug b).readReg k = s.readReg k := rfl

/-! ## `State.setMem` -/

@[simp] theorem State.setMem_regs (m : Memory) : (s.setMem m).regs = s.regs := rfl
@[simp] theorem State.setMem_pc (m : Memory) : (s.setMem m).pc = s.pc := rfl
@[simp] theorem State.setMem_ir (m : Memory) : (s.setMem m).ir = s.ir := rfl
@[simp] theorem State.setMem_sp (m : Memory) : (s.setMem m).sp = s.sp := rfl
@[simp] theorem State.setMem_flags (m : Memory) : (s.setMem m).flags = s.flags := rfl
@[simp] theorem State.setMem_halted (m : Memory) : (s.setMem m).halted = s.halted := rfl
@[simp] theorem State.setMem_cycle (m : Memory) : (s.setMem m).cycle = s.cycle := rfl
@[simp] theorem State.setMem_debug (m : Memory) : (s.setMem m).debug = s.debug := rfl
@[simp] theorem State.setMem_mem (m : Memory) : (s.setMem m).mem = m := rfl
@[simp] theorem State.setMem_timerEnabled (m : Memory) : (s.setMem m).timerEnabled = s.timerEnabled := rfl
@[simp] theorem State.setMem_timerReg (m : Memory) : (s.setMem m).timerReg = s.timerReg := rfl
@[simp] theorem State.setMem_cout (m : Memory) : (s.setMem m).cout = s.cout := rfl
@[simp] theorem State.setMem_cin (m : Memory) : (s.setMem m).cin = s.cin := rfl
@[simp] theorem State.setMem_diag (m : Memory) : (s.setMem m).diag = s.diag := rfl
@[simp] theorem State.setMem_draws (m : Memory) : (s.setMem m).draws = s.draws := rfl
@[simp] theorem State.setMem_readReg (m : Memory) (k : Nat) : (s.setMem m).readReg k = s.readReg k := rfl

/-! ## `State.setTimerEnabled` -/

@[simp] theorem State.setTimerEnabled_regs (b : Bool) : (s.setTimerEnabled b).regs = s.regs := rfl
@[simp] theorem State.setTimerEnabled_pc (b : Bool) : (s.setTimerEnabled b).pc = s.pc := rfl
@[simp] theorem State.setTimerEnabled_ir (b : Bool) : (s.setTimerEnabled b).ir = s.ir := rfl
@[simp] theorem State.setTimerEnabled_sp (b : Bool) : (s.setTimerEnabled b).sp = s.sp := rfl
@[simp] theorem State.setTimerEnabled_flags (b : Bool) : (s.setTimerEnabled b).flags = s.flags := rfl
@[simp] theorem State.setTimerEnabled_halted (b : Bool) : (s.setTimerEnabled b).halted = s.halted := rfl
@[simp] theorem State.setTimerEnabled_cycle (b : Bool) : (s.setTimerEnabled b).cycle = s.cycle := rfl
@[simp] theorem State.setTimerEnabled_debug (b : Bool) : (s.setTimerEnabled b).debug = s.debug := rfl
@[simp] theorem State.setTimerEnabled_mem (b : Bool) : (s.setTimerEnabled b).mem = s.mem := rfl
@[simp] theorem State.setTimerEnabled_timerEnabled (b : Bool) : (s.setTimerEnabled b).timerEnabled = b := rfl
@[simp] theorem State.setTimerEnabled_timerReg (b : Bool) : (s.setTimerEnabled b).timerReg = s.timerReg := rfl
@[simp] theorem State.setTimerEnabled_cout (b : Bool) : (s.setTimerEnabled b).cout = s.cout := rfl
@[simp] theorem State.setTimerEnabled_cin (b : Bool) : (s.setTimerEnabled b).cin = s.cin := rfl
@[simp] theorem State.setTimerEnabled_diag (b : Bool) : (s.setTimerEnabled b).diag = s.diag := rfl
@[simp] theorem State.setTimerEnabled_draws (b : Bool) : (s.setTimerEnabled b).draws = s.draws := rfl
@[simp] theorem State.setTimerEnabled_readReg (b : Bool) (k : Nat) : (s.setTimerEnabled b).readReg k = s.readReg k := rfl

/-! ## `State.setTimerReg` -/

@[simp] theorem State.setTimerReg_regs (v : Word) : (s.setTimerReg v).regs = s.regs := rfl
@[simp] theorem State.setTimerReg_pc (v : Word) : (s.setTimerReg v).pc = s.pc := rfl
@[simp] theorem State.setTimerReg_ir (v : Word) : (s.setTimerReg v).ir = s.ir := rfl
@[simp] theorem State.setTimerReg_sp (v : Word) : (s.setTimerReg v).sp = s.sp := rfl
@[simp] theorem State.setTimerReg_flags (v : Word) : (s.setTimerReg v).flags = s.flags := rfl
@[simp] theorem State.setTimerReg_halted (v : Word) : (s.setTimerReg v).halted = s.halted := rfl
@[simp] theorem State.setTimerReg_cycle (v : Word) : (s.setTimerReg v).cycle = s.cycle := rfl
@[simp] theorem State.setTimerReg_debug (v : Word) : (s.setTimerReg v).debug = s.debug := rfl
@[simp] theorem State.setTimerReg_mem (v : Word) : (s.setTimerReg v).mem = s.mem := rfl
@[simp] theorem State.setTimerReg_timerEnabled (v : Word) : (s.setTimerReg v).timerEnabled = s.timerEnabled := rfl
@[simp] theorem State.setTimerReg_timerReg (v : Word) : (s.setTimerReg v).timerReg = v := rfl
@[simp] theorem State.setTimerReg_cout (v : Word) : (s.setTimerReg v).cout = s.cout := rfl
@[simp] theorem State.setTimerReg_cin (v : Word) : (s.setTimerReg v).cin = s.cin := rfl
@[simp] theorem State.setTimerReg_diag (v : Word) : (s.setTimerReg v).diag = s.diag := rfl
@[simp] theorem State.setTimerReg_draws (v : Word) : (s.setTimerReg v).draws = s.draws := rfl
@[simp] theorem State.setTimerReg_readReg (v : Word) (k : Nat) : (s.setTimerReg v).readReg k = s.readReg k := rfl

/-! ## `State.emit` -/

@[simp] theorem State.emit_regs (b : Byte) : (s.emit b).regs = s.regs := rfl
@[simp] theorem State.emit_pc (b : Byte) : (s.emit b).pc = s.pc := rfl
@[simp] theorem State.emit_ir (b : Byte) : (s.emit b).ir = s.ir := rfl
@[simp] theorem State.emit_sp (b : Byte) : (s.emit b).sp = s.sp := rfl
@[simp] theorem State.emit_flags (b : Byte) : (s.emit b).flags = s.flags := rfl
@[simp] theorem State.emit_halted (b : Byte) : (s.emit b).halted = s.halted := rfl
@[simp] theorem State.emit_cycle (b : Byte) : (s.emit b).cycle = s.cycle := rfl
@[simp] theorem State.emit_debug (b : Byte) : (s.emit b).debug = s.debug := rfl
@[simp] theorem State.emit_mem (b : Byte) : (s.emit b).mem = s.mem := rfl
@[simp] theorem State.emit_timerEnabled (b : Byte) : (s.emit b).timerEnabled = s.timerEnabled := rfl
@[simp] theorem State.emit_timerReg (b : Byte) : (s.emit b).timerReg = s.timerReg := rfl
@[simp] theorem State.emit_cout (b : Byte) : (s.emit b).cout = s.cout ++ [b] := rfl
@[simp] theorem State.emit_cin (b : Byte) : (s.emit b).cin = s.cin := rfl
@[simp] theorem State.emit_diag (b : Byte) : (s.emit b).diag = s.diag := rfl
@[simp] theorem State.emit_draws (b : Byte) : (s.emit b).draws = s.draws := rfl
@[simp] theorem State.emit_readReg (b : Byte) (k : Nat) : (s.emit b).readReg k = s.readReg k := rfl

/-! ## `State.setCin` -/

@[simp] theorem State.setCin_regs (c : ConsoleInput) : (s.setCin c).regs = s.regs := rfl
@[simp] theorem State.setCin_pc (c : ConsoleInput) : (s.setCin c).pc = s.pc := rfl
@[simp] theorem State.setCin_ir (c : ConsoleInput) : (s.setCin c).ir = s.ir := rfl
@[simp] theorem State.setCin_sp (c : ConsoleInput) : (s.setCin c).sp = s.sp := rfl
@[simp] theorem State.setCin_flags (c : ConsoleInput) : (s.setCin c).flags = s.flags := rfl
@[simp] theorem State.setCin_halted (c : ConsoleInput) : (s.setCin c).halted = s.halted := rfl
@[simp] theorem State.setCin_cycle (c : ConsoleInput) : (s.setCin c).cycle = s.cycle := rfl
@[simp] theorem State.setCin_debug (c : ConsoleInput) : (s.setCin c).debug = s.debug := rfl
@[simp] theorem State.setCin_mem (c : ConsoleInput) : (s.setCin c).mem = s.mem := rfl
@[simp] theorem State.setCin_timerEnabled (c : ConsoleInput) : (s.setCin c).timerEnabled = s.timerEnabled := rfl
@[simp] theorem State.setCin_timerReg (c : ConsoleInput) : (s.setCin c).timerReg = s.timerReg := rfl
@[simp] theorem State.setCin_cout (c : ConsoleInput) : (s.setCin c).cout = s.cout := rfl
@[simp] theorem State.setCin_cin (c : ConsoleInput) : (s.setCin c).cin = c := rfl
@[simp] theorem State.setCin_diag (c : ConsoleInput) : (s.setCin c).diag = s.diag := rfl
@[simp] theorem State.setCin_draws (c : ConsoleInput) : (s.setCin c).draws = s.draws := rfl
@[simp] theorem State.setCin_readReg (c : ConsoleInput) (k : Nat) : (s.setCin c).readReg k = s.readReg k := rfl

/-! ## `State.report` -/

@[simp] theorem State.report_regs (r : Report) : (s.report r).regs = s.regs := rfl
@[simp] theorem State.report_pc (r : Report) : (s.report r).pc = s.pc := rfl
@[simp] theorem State.report_ir (r : Report) : (s.report r).ir = s.ir := rfl
@[simp] theorem State.report_sp (r : Report) : (s.report r).sp = s.sp := rfl
@[simp] theorem State.report_flags (r : Report) : (s.report r).flags = s.flags := rfl
@[simp] theorem State.report_halted (r : Report) : (s.report r).halted = s.halted := rfl
@[simp] theorem State.report_cycle (r : Report) : (s.report r).cycle = s.cycle := rfl
@[simp] theorem State.report_debug (r : Report) : (s.report r).debug = s.debug := rfl
@[simp] theorem State.report_mem (r : Report) : (s.report r).mem = s.mem := rfl
@[simp] theorem State.report_timerEnabled (r : Report) : (s.report r).timerEnabled = s.timerEnabled := rfl
@[simp] theorem State.report_timerReg (r : Report) : (s.report r).timerReg = s.timerReg := rfl
@[simp] theorem State.report_cout (r : Report) : (s.report r).cout = s.cout := rfl
@[simp] theorem State.report_cin (r : Report) : (s.report r).cin = s.cin := rfl
@[simp] theorem State.report_diag (r : Report) : (s.report r).diag = s.diag ++ [r] := rfl
@[simp] theorem State.report_draws (r : Report) : (s.report r).draws = s.draws := rfl
@[simp] theorem State.report_readReg (r : Report) (k : Nat) : (s.report r).readReg k = s.readReg k := rfl

/-! ## `State.countDraw` -/

@[simp] theorem State.countDraw_regs : s.countDraw.regs = s.regs := rfl
@[simp] theorem State.countDraw_pc : s.countDraw.pc = s.pc := rfl
@[simp] theorem State.countDraw_ir : s.countDraw.ir = s.ir := rfl
@[simp] theorem State.countDraw_sp : s.countDraw.sp = s.sp := rfl
@[simp] theorem State.countDraw_flags : s.countDraw.flags = s.flags := rfl
@[simp] theorem State.countDraw_halted : s.countDraw.halted = s.halted := rfl
@[simp] theorem State.countDraw_cycle : s.countDraw.cycle = s.cycle := rfl
@[simp] theorem State.countDraw_debug : s.countDraw.debug = s.debug := rfl
@[simp] theorem State.countDraw_mem : s.countDraw.mem = s.mem := rfl
@[simp] theorem State.countDraw_timerEnabled : s.countDraw.timerEnabled = s.timerEnabled := rfl
@[simp] theorem State.countDraw_timerReg : s.countDraw.timerReg = s.timerReg := rfl
@[simp] theorem State.countDraw_cout : s.countDraw.cout = s.cout := rfl
@[simp] theorem State.countDraw_cin : s.countDraw.cin = s.cin := rfl
@[simp] theorem State.countDraw_diag : s.countDraw.diag = s.diag := rfl
@[simp] theorem State.countDraw_draws : s.countDraw.draws = s.draws + 1 := rfl
@[simp] theorem State.countDraw_readReg (k : Nat) : s.countDraw.readReg k = s.readReg k := rfl

/-! ## `State.writeReg` -/

@[simp] theorem State.writeReg_regs (i : Nat) (v : Word) : (s.writeReg i v).regs = s.regs.setIfInBounds i v := rfl
@[simp] theorem State.writeReg_pc (i : Nat) (v : Word) : (s.writeReg i v).pc = s.pc := rfl
@[simp] theorem State.writeReg_ir (i : Nat) (v : Word) : (s.writeReg i v).ir = s.ir := rfl
@[simp] theorem State.writeReg_sp (i : Nat) (v : Word) : (s.writeReg i v).sp = s.sp := rfl
@[simp] theorem State.writeReg_flags (i : Nat) (v : Word) : (s.writeReg i v).flags = s.flags := rfl
@[simp] theorem State.writeReg_halted (i : Nat) (v : Word) : (s.writeReg i v).halted = s.halted := rfl
@[simp] theorem State.writeReg_cycle (i : Nat) (v : Word) : (s.writeReg i v).cycle = s.cycle := rfl
@[simp] theorem State.writeReg_debug (i : Nat) (v : Word) : (s.writeReg i v).debug = s.debug := rfl
@[simp] theorem State.writeReg_mem (i : Nat) (v : Word) : (s.writeReg i v).mem = s.mem := rfl
@[simp] theorem State.writeReg_timerEnabled (i : Nat) (v : Word) : (s.writeReg i v).timerEnabled = s.timerEnabled := rfl
@[simp] theorem State.writeReg_timerReg (i : Nat) (v : Word) : (s.writeReg i v).timerReg = s.timerReg := rfl
@[simp] theorem State.writeReg_cout (i : Nat) (v : Word) : (s.writeReg i v).cout = s.cout := rfl
@[simp] theorem State.writeReg_cin (i : Nat) (v : Word) : (s.writeReg i v).cin = s.cin := rfl
@[simp] theorem State.writeReg_diag (i : Nat) (v : Word) : (s.writeReg i v).diag = s.diag := rfl
@[simp] theorem State.writeReg_draws (i : Nat) (v : Word) : (s.writeReg i v).draws = s.draws := rfl

/-! ## `State.updateZN` -/

@[simp] theorem State.updateZN_regs (r : Word) : (s.updateZN r).regs = s.regs := rfl
@[simp] theorem State.updateZN_pc (r : Word) : (s.updateZN r).pc = s.pc := rfl
@[simp] theorem State.updateZN_ir (r : Word) : (s.updateZN r).ir = s.ir := rfl
@[simp] theorem State.updateZN_sp (r : Word) : (s.updateZN r).sp = s.sp := rfl
@[simp] theorem State.updateZN_flags (r : Word) : (s.updateZN r).flags = { s.flags with zero := isZero r, negative := isNegative r } := rfl
@[simp] theorem State.updateZN_halted (r : Word) : (s.updateZN r).halted = s.halted := rfl
@[simp] theorem State.updateZN_cycle (r : Word) : (s.updateZN r).cycle = s.cycle := rfl
@[simp] theorem State.updateZN_debug (r : Word) : (s.updateZN r).debug = s.debug := rfl
@[simp] theorem State.updateZN_mem (r : Word) : (s.updateZN r).mem = s.mem := rfl
@[simp] theorem State.updateZN_timerEnabled (r : Word) : (s.updateZN r).timerEnabled = s.timerEnabled := rfl
@[simp] theorem State.updateZN_timerReg (r : Word) : (s.updateZN r).timerReg = s.timerReg := rfl
@[simp] theorem State.updateZN_cout (r : Word) : (s.updateZN r).cout = s.cout := rfl
@[simp] theorem State.updateZN_cin (r : Word) : (s.updateZN r).cin = s.cin := rfl
@[simp] theorem State.updateZN_diag (r : Word) : (s.updateZN r).diag = s.diag := rfl
@[simp] theorem State.updateZN_draws (r : Word) : (s.updateZN r).draws = s.draws := rfl
@[simp] theorem State.updateZN_readReg (r : Word) (k : Nat) : (s.updateZN r).readReg k = s.readReg k := rfl

/-! ## `State.setCarry` -/

@[simp] theorem State.setCarry_regs (b : Bool) : (s.setCarry b).regs = s.regs := rfl
@[simp] theorem State.setCarry_pc (b : Bool) : (s.setCarry b).pc = s.pc := rfl
@[simp] theorem State.setCarry_ir (b : Bool) : (s.setCarry b).ir = s.ir := rfl
@[simp] theorem State.setCarry_sp (b : Bool) : (s.setCarry b).sp = s.sp := rfl
@[simp] theorem State.setCarry_flags (b : Bool) : (s.setCarry b).flags = { s.flags with carry := b } := rfl
@[simp] theorem State.setCarry_halted (b : Bool) : (s.setCarry b).halted = s.halted := rfl
@[simp] theorem State.setCarry_cycle (b : Bool) : (s.setCarry b).cycle = s.cycle := rfl
@[simp] theorem State.setCarry_debug (b : Bool) : (s.setCarry b).debug = s.debug := rfl
@[simp] theorem State.setCarry_mem (b : Bool) : (s.setCarry b).mem = s.mem := rfl
@[simp] theorem State.setCarry_timerEnabled (b : Bool) : (s.setCarry b).timerEnabled = s.timerEnabled := rfl
@[simp] theorem State.setCarry_timerReg (b : Bool) : (s.setCarry b).timerReg = s.timerReg := rfl
@[simp] theorem State.setCarry_cout (b : Bool) : (s.setCarry b).cout = s.cout := rfl
@[simp] theorem State.setCarry_cin (b : Bool) : (s.setCarry b).cin = s.cin := rfl
@[simp] theorem State.setCarry_diag (b : Bool) : (s.setCarry b).diag = s.diag := rfl
@[simp] theorem State.setCarry_draws (b : Bool) : (s.setCarry b).draws = s.draws := rfl
@[simp] theorem State.setCarry_readReg (b : Bool) (k : Nat) : (s.setCarry b).readReg k = s.readReg k := rfl

/-! ## The register bank -/

/-- An index outside 0..7 reads 0 (R12). -/
theorem State.readReg_of_ge {i : Nat} (h : 8 ≤ i) : s.readReg i = 0 := by
  simp [State.readReg, Vector.getElem?_eq_none h]

/-- A register inside the bank reads its content (R12). -/
theorem State.readReg_of_lt {i : Nat} (h : i < 8) : s.readReg i = s.regs[i] := by
  simp [State.readReg, h]

/-- Read after write: the index written, if the bank has it, and no other (R12, R13). -/
@[simp] theorem State.readReg_writeReg (i k : Nat) (v : Word) :
    (s.writeReg i v).readReg k = if k = i ∧ i < 8 then v else s.readReg k := by
  unfold State.readReg State.writeReg
  rw [Vector.getElem?_setIfInBounds]
  by_cases hk : i = k
  · subst hk
    by_cases hi : i < 8 <;> simp [hi]
  · simp [hk, Ne.symm hk]

/-- Two states whose banks read alike have the same registers. -/
theorem State.regs_ext {s t : State} (h : ∀ k, s.readReg k = t.readReg k) : s.regs = t.regs := by
  apply Vector.ext
  intro i hi
  have := h i
  rwa [State.readReg_of_lt s hi, State.readReg_of_lt t hi] at this

end Sys2Proof.Machine
end

