-- ==== Sys2Proof/Laws/Bus.lean ====
section
/-!
SUPPORT. Everything a word access on the memory bus can do, said once for the read and once for the write.
-/

namespace Sys2Proof.Machine

/-- A word read of plain storage is the little-endian word there and has no effect (R44). -/
theorem memRead_of_isPlain {a : Word} (s : State) (h : isPlain a = true) :
    memRead a s = some (s.mem.loadWord a, s) := by
  simp only [isPlain, Bool.and_eq_true, Bool.not_eq_true', decide_eq_true_eq] at h
  simp [memRead, h.1, h.2]

/-- A word read at the last address answers 0 and reports (R47). -/
theorem memRead_lastAddr (s : State) :
    memRead Config.lastAddr s = some (0, s.report (.boundsViolation .read Config.lastAddr)) := by
  simp [memRead, (outOfBounds_iff _).2 rfl]

/-- A word read in the MMIO region is a device read (R44). -/
theorem memRead_of_mmio {a : Word} (s : State) (h : regionOf a = .mmio) : memRead a s = deviceRead a s := by
  have hb : outOfBounds a = false := by
    rw [outOfBounds_eq_false]; rintro rfl; revert h; decide
  simp [memRead, hb, h]

/-- A word write of plain storage stores the two bytes (R45). -/
theorem memWrite_of_isPlain {a : Word} (v : Word) (s : State) (h : isPlain a = true) :
    memWrite a v s = s.setMem (s.mem.storeWord a v) := by
  simp only [isPlain, Bool.and_eq_true, Bool.not_eq_true', decide_eq_true_eq] at h
  simp [memWrite, h.1, h.2]

/-- A word write at the last address writes nothing and reports (R47). -/
theorem memWrite_lastAddr (v : Word) (s : State) :
    memWrite Config.lastAddr v s = s.report (.boundsViolation .write Config.lastAddr) := by
  simp [memWrite, (outOfBounds_iff _).2 rfl]

/-- A word write in the MMIO region is a device write (R45). -/
theorem memWrite_of_mmio {a : Word} (v : Word) (s : State) (h : regionOf a = .mmio) :
    memWrite a v s = deviceWrite a v s := by
  have hb : outOfBounds a = false := by
    rw [outOfBounds_eq_false]; rintro rfl; revert h; decide
  simp [memWrite, hb, h]

/-- Every address is the last one, plain storage, or in the MMIO region. -/
theorem address_cases (a : Word) : a = Config.lastAddr ∨ isPlain a = true ∨ regionOf a = .mmio := by
  by_cases hb : a = Config.lastAddr
  · exact .inl hb
  · by_cases hr : regionOf a = .mmio
    · exact .inr (.inr hr)
    · exact .inr (.inl (by simp [isPlain, outOfBounds_eq_false.2 hb, hr]))

/-- What `MemRead(a, 2)` can answer: the bounds violation, plain storage, a character, the end of input, a draw,
or the 0 of every other device address (R44, R47, R50 to R54). -/
theorem memRead_cases {a v : Word} {s t : State} (h : memRead a s = some (v, t)) :
    (a = Config.lastAddr ∧ v = 0 ∧ t = s.report (.boundsViolation .read a)) ∨
    (isPlain a = true ∧ v = s.mem.loadWord a ∧ t = s) ∨
    (a = Config.consoleIn ∧ ∃ c rest, s.cin.pending = c :: rest ∧ v = c.setWidth 16 ∧
      t = s.setCin { s.cin with pending := rest }) ∨
    (a = Config.consoleIn ∧ s.cin.pending = [] ∧ s.cin.ended = true ∧ v = 0 ∧ t = s) ∨
    (a = Config.timerValue ∧ v = Config.timerDraw s.draws ∧ t = s.countDraw) ∨
    (regionOf a = .mmio ∧ a ≠ Config.consoleIn ∧ a ≠ Config.timerValue ∧ v = 0 ∧ t = s) := by
  rcases address_cases a with rfl | hp | hm
  · rw [memRead_lastAddr] at h
    cases h
    exact .inl ⟨rfl, rfl, rfl⟩
  · rw [memRead_of_isPlain s hp] at h
    cases h
    exact .inr (.inl ⟨hp, rfl, rfl⟩)
  · rw [memRead_of_mmio s hm] at h
    unfold deviceRead at h
    split at h
    · next ha =>
      unfold consoleNext at h
      split at h
      · next c rest hc =>
        cases h
        exact .inr (.inr (.inl ⟨ha, c, rest, hc, rfl, rfl⟩))
      · next hc =>
        split at h
        · next he =>
          cases h
          exact .inr (.inr (.inr (.inl ⟨ha, hc, he, rfl, rfl⟩)))
        · cases h
    · split at h
      · next ha =>
        cases h
        exact .inr (.inr (.inr (.inr (.inl ⟨ha, rfl, rfl⟩))))
      · next hc ht =>
        cases h
        exact .inr (.inr (.inr (.inr (.inr ⟨hm, hc, ht, rfl, rfl⟩))))

/-- A word read waits exactly at 0xF001 while the console is blocked (R58, R117). -/
theorem memRead_eq_none {a : Word} {s : State} :
    memRead a s = none ↔ a = Config.consoleIn ∧ s.ConsoleBlocked := by
  have hin : regionOf Config.consoleIn = .mmio := by decide
  constructor
  · intro h
    rcases address_cases a with rfl | hp | hm
    · simp [memRead_lastAddr] at h
    · simp [memRead_of_isPlain s hp] at h
    · rw [memRead_of_mmio s hm] at h
      unfold deviceRead at h
      split at h
      · next ha =>
        refine ⟨ha, ?_⟩
        unfold consoleNext at h
        split at h
        · cases h
        · next hc =>
          split at h
          · cases h
          · next he => exact ⟨hc, by simpa using he⟩
      · split at h <;> cases h
  · rintro ⟨rfl, hc, he⟩
    rw [memRead_of_mmio s hin]
    simp [deviceRead, consoleNext, hc, he]

/-- A word read changes at most the console input, the reports and the draw counter (R58). -/
theorem memRead_changes {a v : Word} {s t : State} (h : memRead a s = some (v, t)) :
    t = { s with cin := t.cin, diag := t.diag, draws := t.draws } := by
  rcases memRead_cases h with ⟨-, -, rfl⟩ | ⟨-, -, rfl⟩ | ⟨-, _, _, -, -, rfl⟩ | ⟨-, -, -, -, rfl⟩ | ⟨-, -, rfl⟩ |
    ⟨-, -, -, -, rfl⟩ <;> rfl

/-- What `MemWrite(a, 2, v)` can do: the bounds violation, plain storage, the console, the timer's two hidden
registers, or nothing (R45, R47, R49, R51 to R54). -/
theorem memWrite_cases (a v : Word) (s : State) :
    (a = Config.lastAddr ∧ memWrite a v s = s.report (.boundsViolation .write a)) ∨
    (isPlain a = true ∧ memWrite a v s = s.setMem (s.mem.storeWord a v)) ∨
    (a = Config.consoleOut ∧ memWrite a v s = s.emit (loByte v)) ∨
    (a = Config.timerControl ∧ memWrite a v s = s.setTimerEnabled (decide (v ≠ 0))) ∨
    (a = Config.timerValue ∧ memWrite a v s = s.setTimerReg v) ∨
    (regionOf a = .mmio ∧ a ≠ Config.consoleOut ∧ a ≠ Config.timerControl ∧ a ≠ Config.timerValue ∧
      memWrite a v s = s) := by
  rcases address_cases a with rfl | hp | hm
  · exact .inl ⟨rfl, memWrite_lastAddr v s⟩
  · exact .inr (.inl ⟨hp, memWrite_of_isPlain v s hp⟩)
  · rw [memWrite_of_mmio v s hm]
    unfold deviceWrite
    split
    · next h => exact .inr (.inr (.inl ⟨h, rfl⟩))
    · split
      · next h => exact .inr (.inr (.inr (.inl ⟨h, rfl⟩)))
      · split
        · next h => exact .inr (.inr (.inr (.inr (.inl ⟨h, rfl⟩))))
        · next h₁ h₂ h₃ => exact .inr (.inr (.inr (.inr (.inr ⟨hm, h₁, h₂, h₃, rfl⟩))))

/-- A word write changes at most memory, the timer's hidden registers, the console output and the reports
(R58). -/
theorem memWrite_changes (a v : Word) (s : State) :
    memWrite a v s = { s with mem := (memWrite a v s).mem, timerEnabled := (memWrite a v s).timerEnabled,
                              timerReg := (memWrite a v s).timerReg, cout := (memWrite a v s).cout,
                              diag := (memWrite a v s).diag } := by
  rcases memWrite_cases a v s with ⟨-, h⟩ | ⟨-, h⟩ | ⟨-, h⟩ | ⟨-, h⟩ | ⟨-, h⟩ | ⟨-, -, -, -, h⟩ <;> rw [h] <;> rfl

/-- A word write keeps the canonical form of memory. -/
theorem memWrite_wf (a v : Word) {s : State} (h : s.mem.wf) : (memWrite a v s).mem.wf := by
  rcases memWrite_cases a v s with ⟨-, e⟩ | ⟨hp, e⟩ | ⟨-, e⟩ | ⟨-, e⟩ | ⟨-, e⟩ | ⟨-, -, -, -, e⟩ <;> rw [e]
  · exact h
  · exact Memory.wf_storeWord h (toNat_succ_lt_of_isPlain hp) v
  all_goals exact h

end Sys2Proof.Machine
end

