-- ==== Sys2Proof/Laws/PerInstr.lean ====
section
/-!
SUPPORT. What is said of every instruction as syntax, one lemma per constructor (LAWS.json).

`EncodedOpcode`: whatever its operands, an instruction is encoded under the opcode the table gives it, and the
encoder writes 0 in every bit the format ignores (spec/30_encoding.md R78, R79, R82).
-/

namespace Sys2Proof.Laws.EncodedOpcode

/-- The encoder's word has the opcode of the table and 0 in the ignored bits. -/
def Statement (i : Instr) : Prop :=
  unsignedField (encode i) 12 4 = i.opcode ∧ encode i &&& usedBits i.opcode = encode i

/-- The clause about ignored bits, for a word whose low three bits are 0. -/
theorem and_usedBits_of_low3 {w : Word} (h : w.toNat % 8 = 0) : w &&& 0xFFF8 = w := by
  have e : (w.extractLsb' 0 3) = 0#3 := by
    apply BitVec.eq_of_toNat_eq
    simpa [BitVec.extractLsb'_toNat] using h
  ext k hk
  have bit : ∀ j, j < 3 → w.getLsbD j = false := by
    intro j hj
    have := congrArg (fun v => v.getLsbD j) e
    simpa [BitVec.getLsbD_extractLsb', hj] using this
  have hb := bit k
  rw [BitVec.getLsbD_eq_getElem hk] at hb
  rw [BitVec.getElem_and]
  interval_cases k <;> simp_all

/-- The clause about ignored bits, for a word whose low twelve bits are 0. -/
theorem and_usedBits_of_low12 {w : Word} (h : w.toNat % 4096 = 0) : w &&& 0xF000 = w := by
  have e : (w.extractLsb' 0 12) = 0#12 := by
    apply BitVec.eq_of_toNat_eq
    simpa [BitVec.extractLsb'_toNat] using h
  ext k hk
  have bit : ∀ j, j < 12 → w.getLsbD j = false := by
    intro j hj
    have := congrArg (fun v => v.getLsbD j) e
    simpa [BitVec.getLsbD_extractLsb', hj] using this
  have hb := bit k
  rw [BitVec.getLsbD_eq_getElem hk] at hb
  rw [BitVec.getElem_and]
  interval_cases k <;> simp_all

theorem and_usedBits_all (w : Word) : w &&& 0xFFFF = w := by
  rw [show (0xFFFF : Word) = BitVec.allOnes 16 from rfl, BitVec.and_allOnes]

theorem formatR (op rd rs1 rs2 : Nat) (h : op < 16) :
    unsignedField (encodeR op rd rs1 rs2) 12 4 = op ∧
      encodeR op rd rs1 rs2 &&& 0xFFF8 = encodeR op rd rs1 rs2 := by
  refine ⟨?_, and_usedBits_of_low3 ?_⟩ <;> simp only [unsignedField_eq, encodeR_toNat] <;> omega

theorem formatI (op rd : Nat) (imm : Int) (h : op < 16) :
    unsignedField (encodeI op rd imm) 12 4 = op ∧ encodeI op rd imm &&& 0xFFFF = encodeI op rd imm := by
  refine ⟨?_, and_usedBits_all _⟩
  simp only [unsignedField_eq, encodeI_toNat]; omega

theorem formatM (op rd rs1 : Nat) (off : Int) (h : op < 16) :
    unsignedField (encodeM op rd rs1 off) 12 4 = op ∧ encodeM op rd rs1 off &&& 0xFFFF = encodeM op rd rs1 off := by
  refine ⟨?_, and_usedBits_all _⟩
  simp only [unsignedField_eq, encodeM_toNat]; omega

theorem formatB (op : Nat) (imm : Int) (h : op < 16) :
    unsignedField (encodeB op imm) 12 4 = op ∧ encodeB op imm &&& 0xFFFF = encodeB op imm := by
  refine ⟨?_, and_usedBits_all _⟩
  simp only [unsignedField_eq, encodeB_toNat]; omega

theorem nop : Statement .nop := by unfold Statement; decide
theorem add (rd rs1 rs2 : Nat) : Statement (.add rd rs1 rs2) := formatR 0x1 rd rs1 rs2 (by decide)
theorem addi (rd : Nat) (imm9 : Int) : Statement (.addi rd imm9) := formatI 0x2 rd imm9 (by decide)
theorem sub (rd rs1 rs2 : Nat) : Statement (.sub rd rs1 rs2) := formatR 0x3 rd rs1 rs2 (by decide)
theorem subi (rd : Nat) (imm9 : Int) : Statement (.subi rd imm9) := formatI 0x4 rd imm9 (by decide)
theorem and (rd rs1 rs2 : Nat) : Statement (.and rd rs1 rs2) := formatR 0x5 rd rs1 rs2 (by decide)
theorem or (rd rs1 rs2 : Nat) : Statement (.or rd rs1 rs2) := formatR 0x6 rd rs1 rs2 (by decide)
theorem xor (rd rs1 rs2 : Nat) : Statement (.xor rd rs1 rs2) := formatR 0x7 rd rs1 rs2 (by decide)
theorem load (rd rs1 : Nat) (offset6 : Int) : Statement (.load rd rs1 offset6) :=
  formatM 0x8 rd rs1 offset6 (by decide)
theorem store (rd rs1 : Nat) (offset6 : Int) : Statement (.store rd rs1 offset6) :=
  formatM 0x9 rd rs1 offset6 (by decide)
theorem loadi (rd : Nat) (imm9 : Int) : Statement (.loadi rd imm9) := formatI 0xA rd imm9 (by decide)
theorem branch (imm12 : Int) : Statement (.branch imm12) := formatB 0xB imm12 (by decide)
theorem beq (imm12 : Int) : Statement (.beq imm12) := formatB 0xC imm12 (by decide)
theorem bne (imm12 : Int) : Statement (.bne imm12) := formatB 0xD imm12 (by decide)
theorem blt (imm12 : Int) : Statement (.blt imm12) := formatB 0xE imm12 (by decide)
theorem halt : Statement .halt := by unfold Statement; decide

end Sys2Proof.Laws.EncodedOpcode
end

