-- ==== Sys2Proof/Laws/Step.lean ====
section
/-!
SUPPORT. What a step can be, said once: a halted core stays; otherwise a word is fetched, it is an instruction,
its meaning answers, and the cycle is counted.
-/

namespace Sys2Proof.Machine

/-- A fetch is a word read at `pc`, then `ir` and `pc` (R110). -/
theorem fetch_eq_some {s t : State} {w : Word} (h : fetch s = some (w, t)) :
    ∃ u, memRead s.pc s = some (w, u) ∧ t = (u.setIr w).setPc (s.pc + 2) := by
  unfold fetch at h
  split at h
  · next v u hu => cases h; exact ⟨u, hu, rfl⟩
  · cases h

/-- A fetch waits exactly at 0xF001 while the console is blocked (R58, R117). -/
theorem fetch_eq_none {s : State} : fetch s = none ↔ s.pc = Config.consoleIn ∧ s.ConsoleBlocked := by
  rw [← memRead_eq_none]
  unfold fetch
  split <;> simp [*]

/-- A fetch changes `ir`, `pc` and at most the console input, the reports and the draw counter (R65). -/
theorem fetch_changes {s t : State} {w : Word} (h : fetch s = some (w, t)) :
    t = { s with ir := w, pc := s.pc + 2, cin := t.cin, diag := t.diag, draws := t.draws } := by
  obtain ⟨u, hu, rfl⟩ := fetch_eq_some h
  have := memRead_changes hu
  rw [this]; rfl

/-- Every decoded word is executed as an instruction (R80, R112). -/
theorem execute_decodeFields (a w : Word) (s : State) :
    ∃ i, decodeWord w = .ok i ∧ execute a (decodeFields w) s = exec i s := by
  obtain ⟨i, hi, -⟩ := (decodeFields w).toInstr_of_lt (decodeFields_opcode_lt w)
  exact ⟨i, hi, by simp [execute, hi]⟩

/-- No instruction is refused. -/
theorem exec_ne_refused (i : Instr) (s : State) (r : Refusal) : exec i s ≠ .refused r := by
  cases i <;> simp only [exec, execNop, execAdd, execAddi, execSub, execSubi, execAnd, execOr, execXor, execLoad,
    execStore, execLoadi, execBranch, execBeq, execBne, execBlt, execHalt, ne_eq, reduceCtorEq, not_false_eq_true]
  split <;> simp

/-- The one way an instruction fails to complete: a LOAD of 0xF001 while the console is blocked (R117). -/
theorem exec_eq_fault {i : Instr} {s : State} {f : Fault} :
    exec i s = .fault f ↔
      ∃ rd rs1 off, i = .load rd rs1 off ∧ effAddr s rs1 off = Config.consoleIn ∧ s.ConsoleBlocked := by
  cases i <;> simp only [exec, execNop, execAdd, execAddi, execSub, execSubi, execAnd, execOr, execXor, execLoad,
    execStore, execLoadi, execBranch, execBeq, execBne, execBlt, execHalt, reduceCtorEq, false_and, exists_false]
  next rd rs1 off =>
  constructor
  · intro h
    split at h
    · cases h
    · next hn =>
      obtain ⟨ha, hb⟩ := memRead_eq_none.1 hn
      exact ⟨rd, rs1, off, rfl, ha, hb⟩
  · rintro ⟨_, _, _, h, ha, hb⟩
    cases h
    rw [memRead_eq_none.2 ⟨ha, hb⟩]

/-- A step that answers: the core was halted and stays, or it ran one instruction and counted it (R110). -/
theorem step_cases {s t : State} (h : step s = .next t) :
    (s.halted = true ∧ t = s) ∨
    (s.halted = false ∧ ∃ w u i v, fetch s = some (w, u) ∧ decodeWord w = .ok i ∧ exec i u = .next v ∧ t = v.tick) := by
  unfold step at h
  split at h
  · next hh => cases h; exact .inl ⟨hh, rfl⟩
  · next hh =>
    refine .inr ⟨by simpa using hh, ?_⟩
    unfold fetchExecute at h
    split at h
    · next w u hf =>
      obtain ⟨i, hi, he⟩ := execute_decodeFields s.pc w u
      rw [he] at h
      cases hx : exec i u with
      | next v => rw [hx] at h; cases h; exact ⟨w, u, i, v, hf, hi, hx, rfl⟩
      | fault f => rw [hx] at h; cases h
      | refused r => rw [hx] at h; cases h
    · cases h

/-- A step of a running core is the decoded instruction's meaning, counted (R110). -/
theorem step_of_fetch {s u : State} {w : Word} {i : Instr} (hh : s.halted = false) (hf : fetch s = some (w, u))
    (hi : decodeWord w = .ok i) : step s = countCycle (exec i u) := by
  obtain ⟨j, hj, he⟩ := execute_decodeFields s.pc w u
  rw [hi] at hj; cases hj
  simp [step, fetchExecute, hh, hf, he]

end Sys2Proof.Machine
end

