-- ==== Sys2Proof/Tests/Slice0.lean ====
section
/-!
SUPPORT. Tests of the model, each against a value of spec/95_test_vectors.md (named in its comment) or of the rule it
cites, and, for every obligation with hypotheses, a witness that meets them.
-/

namespace Sys2Proof.Tests

open Sys2Proof.Machine

/-! ## Small states -/

/-- What a step leaves in the fields `f` picks. -/
def look {α : Type} (o : Host.Outcome State Fault Refusal) (f : State → α) : Option α :=
  match o with
  | .next t => some (f t)
  | .fault _ => none
  | .refused _ => none

/-- The flags Z, N, C, with V = 0, as the vectors write them. -/
def znc (z n c : Bool) : Flags := { zero := z, negative := n, carry := c, overflow := false }

/-- A reset state with R0, R1, R2 and the flags given. -/
def base (r0 r1 r2 : Word) (f : Flags) : State :=
  { State.reset with regs := #v[r0, r1, r2, 0, 0, 0, 0, 0], flags := f }

/-- A reset state at address `a` with the flags given. -/
def baseAt (a : Word) (f : Flags) : State := { State.reset with pc := a, flags := f }

/-- A reset state whose R1 is the address `a`. -/
def pointing (a : Word) : State := base 0 a 0 (znc false false false)

/-- One step of the word `w` from `s`, as the vectors take it. -/
def run1 (s : State) (w : Word) : Host.Outcome State Fault Refusal := step (placeWord s w)

/-! ## WellFormed: an ill-formed term for each check -/

theorem test_wellFormed_refuses_register : (Instr.add 0 8 0).wellFormed = false := by decide
theorem test_wellFormed_refuses_imm9 :
    (Instr.addi 0 256).wellFormed = false ∧ (Instr.loadi 0 (-257)).wellFormed = false := by decide
theorem test_wellFormed_refuses_imm12 :
    (Instr.branch 2048).wellFormed = false ∧ (Instr.blt (-2049)).wellFormed = false := by decide
theorem test_wellFormed_refuses_offset6 :
    (Instr.load 0 0 32).wellFormed = false ∧ (Instr.store 0 0 (-33)).wellFormed = false := by decide
theorem test_wellFormed_accepts_the_limits :
    (Instr.store 7 7 (-32)).wellFormed = true ∧ (Instr.subi 7 255).wellFormed = true ∧
      (Instr.bne (-2048)).wellFormed = true := by decide

/-! ## Decode: every constructor, from a word written out bit by bit (R72, R78) -/

theorem test_decode_no_operand :
    decodeWord 0b0000101010111100 = .ok .nop ∧ decodeWord 0b1111111111111111 = .ok .halt := by decide
theorem test_decode_register_form :
    decodeWord 0b0001000001010111 = .ok (.add 0 1 2) ∧ decodeWord 0b0011101011100000 = .ok (.sub 5 3 4) ∧
      decodeWord 0b0101010101010101 = .ok (.and 2 5 2) ∧ decodeWord 0b0110100101101000 = .ok (.or 4 5 5) ∧
      decodeWord 0b0111110110110000 = .ok (.xor 6 6 6) := by decide
theorem test_decode_immediate_form :
    decodeWord 0b0010011000000001 = .ok (.addi 3 1) ∧ decodeWord 0b0100000100000000 = .ok (.subi 0 (-256)) ∧
      decodeWord 0b1010010111111111 = .ok (.loadi 2 (-1)) := by decide
/-- The upper ends of imm9 (255) and offset6 (31), with which `SampleWordsDecode` has the lower ends (R74, R76). -/
theorem test_decode_upper_ends :
    decodeWord 0b0010011011111111 = .ok (.addi 3 255) ∧ decodeWord 0b1000000001011111 = .ok (.load 0 1 31) := by decide
theorem test_decode_memory_form :
    decodeWord 0b1000000001111110 = .ok (.load 0 1 (-2)) ∧ decodeWord 0b1001000001000010 = .ok (.store 0 1 2) := by
  decide
theorem test_decode_branch_form :
    decodeWord 0b1011100000000000 = .ok (.branch (-2048)) ∧ decodeWord 0b1100111111111000 = .ok (.beq (-8)) ∧
      decodeWord 0b1101111111111010 = .ok (.bne (-6)) ∧ decodeWord 0b1110000000000010 = .ok (.blt 2) := by decide
theorem test_decode_rejects_by_name :
    decode [0x50] = .error .truncated ∧ ({ decodeFields 0 with opcode := 16 }).toInstr = .error (.unknownOpcode 16) := by
  decide
/-- R66: the word 0xA005 is the byte 0x05 at the lower address. -/
theorem test_decode_byte_order : decode [0x05, 0xA0, 0xFF] = .ok (.loadi 0 5, [0xFF]) := by decide
/-- 95 section 2, the row of AF2C, all seven values. -/
theorem test_decodeFields :
    decodeFields 0xAF2C =
      { opcode := 0xA, rd := 7, rs1 := 4, rs2 := 5, imm9 := 0xFF2C, imm12 := 0xFF2C, offset6 := 0xFFEC } := by decide
/-- 95 section 2: immediates are truncated, not rejected. -/
theorem test_encode_truncates : encode (.loadi 7 300) = 0xAF2C ∧ encode (.loadi 0 (-257)) = 0xA0FF := by decide
theorem test_decodeTableWord : decodeTableWord 16 0x1057 = some (.add 0 1 2) := by decide

/-! ## One step of each instruction -/

/-- B2. -/
theorem test_nop : look (run1 (baseAt 0x0010 (znc true true true)) 0x0ABC)
    (fun t => (t.pc, t.ir, t.cycle, t.flags)) = some (0x0012, 0x0ABC, 1, znc true true true) := by decide
/-- A1, the source's own example. -/
theorem test_add_carry : look (run1 (base 0 0xFFFF 0x0001 (znc false false false)) 0x1050)
    (fun t => (t.readReg 0, t.flags)) = some (0x0000, znc true false true) := by decide
/-- A2. -/
theorem test_add_clears_carry : look (run1 (base 0 0x7FFF 0x0001 (znc false false true)) 0x1050)
    (fun t => (t.readReg 0, t.flags)) = some (0x8000, znc false true false) := by decide
/-- A14, with R0 in place of R3. -/
theorem test_addi_keeps_carry : look (run1 (base 0xFFFF 0 0 (znc false false false)) 0x2001)
    (fun t => (t.readReg 0, t.flags)) = some (0x0000, znc true false false) := by decide
/-- A16, with R0 in place of R3. -/
theorem test_addi_most_negative : look (run1 (base 0x0100 0 0 (znc false false false)) 0x2100)
    (fun t => (t.readReg 0, t.flags)) = some (0x0000, znc true false false) := by decide
/-- A7. -/
theorem test_sub_wraps : look (run1 (base 0 0x0005 0x0007 (znc false false true)) 0x3050)
    (fun t => (t.readReg 0, t.flags)) = some (0xFFFE, znc false true true) := by decide
/-- A9. -/
theorem test_sub_signed_overflow : look (run1 (base 0 0x8000 0x0001 (znc false false true)) 0x3050)
    (fun t => (t.readReg 0, t.flags)) = some (0x7FFF, znc false false true) := by decide
/-- A20. -/
theorem test_subi_wraps : look (run1 (base 0x0000 0 0 (znc false false true)) 0x4001)
    (fun t => (t.readReg 0, t.flags)) = some (0xFFFF, znc false true true) := by decide
/-- A22. -/
theorem test_subi_adds_256 : look (run1 (base 0x0000 0 0 (znc false false false)) 0x4100)
    (fun t => (t.readReg 0, t.flags)) = some (0x0100, znc false false false) := by decide
/-- A24. -/
theorem test_and : look (run1 (base 0 0xF0F0 0x0FF0 (znc false false true)) 0x5050)
    (fun t => (t.readReg 0, t.flags)) = some (0x00F0, znc false false true) := by decide
/-- A27. -/
theorem test_or : look (run1 (base 0 0xF0F0 0x0FF0 (znc false false false)) 0x6050)
    (fun t => (t.readReg 0, t.flags)) = some (0xFFF0, znc false true false) := by decide
/-- A30. -/
theorem test_xor : look (run1 (base 0 0xF0F0 0x0FF0 (znc false false false)) 0x7050)
    (fun t => (t.readReg 0, t.flags)) = some (0xFF00, znc false true false) := by decide
/-- A33. -/
theorem test_loadi_keeps_flags : look (run1 (base 0xAAAA 0 0 (znc true true true)) 0xA005)
    (fun t => (t.readReg 0, t.flags)) = some (0x0005, znc true true true) := by decide
/-- A37. -/
theorem test_loadi_negative : look (run1 (base 0 0 0 (znc false false false)) 0xAF00)
    (fun t => (t.readReg 7, t.flags)) = some (0xFF00, znc false false false) := by decide
/-- M1. -/
theorem test_load_little_endian :
    look (run1 { pointing 0x0102 with mem := [(0x0100, 0xEF), (0x0101, 0xBE)] } 0x807E)
      (fun t => (t.readReg 0, t.flags)) = some (0xBEEF, znc false false false) := by decide
/-- M4. -/
theorem test_load_bounds : look (run1 (base 0 0xFFFF 0x5555 (znc false false false)) 0x8440)
    (fun t => (t.readReg 2, t.diag, t.halted)) = some (0x0000, [.boundsViolation .read 0xFFFF], false) := by decide
/-- M13. -/
theorem test_store_straddles_into_mmio : look (run1 (base 0xABCD 0xEFFF 0 (znc false false false)) 0x9040)
    (fun t => (t.mem.readByte 0xEFFF, t.mem.readByte 0xF000, t.cout)) = some (0xCD, 0xAB, []) := by decide
/-- M12. -/
theorem test_store_console : look (run1 (base 0x4142 0xF000 0 (znc false false false)) 0x9040)
    (fun t => (t.cout, t.mem.readByte 0xF000)) = some ([0x42], 0x00) := by decide
/-- B9. -/
theorem test_branch_wraps : look (run1 (baseAt 0xFFFC (znc false false false)) 0xB004) (·.pc) = some 0x0002 := by decide
/-- B6. -/
theorem test_branch_furthest : look (run1 (baseAt 0x0100 (znc false false false)) 0xB7FF) (·.pc) = some 0x0901 := by
  decide
/-- B11. -/
theorem test_beq_taken : look (run1 (baseAt 0x0010 (znc true false false)) 0xCFF8) (·.pc) = some 0x000A := by decide
/-- B12. -/
theorem test_beq_not_taken : look (run1 (baseAt 0x0010 (znc false true true)) 0xCFF8) (·.pc) = some 0x0012 := by decide
/-- B13. -/
theorem test_bne_taken : look (run1 (baseAt 0x0008 (znc false false false)) 0xDFFA) (·.pc) = some 0x0004 := by decide
/-- B14. -/
theorem test_bne_not_taken : look (run1 (baseAt 0x0008 (znc true false false)) 0xDFFA) (·.pc) = some 0x000A := by decide
/-- B15. -/
theorem test_blt_taken : look (run1 (baseAt 0x0014 (znc false true false)) 0xE002) (·.pc) = some 0x0018 := by decide
/-- B16. -/
theorem test_blt_not_taken : look (run1 (baseAt 0x0014 (znc true false true)) 0xE002) (·.pc) = some 0x0016 := by decide
/-- B18. -/
theorem test_halt : look (run1 (baseAt 0x000A (znc false false false)) 0xF000)
    (fun t => (t.pc, t.halted, t.cycle)) = some (0x000C, true, 1) := by decide

/-! ## The rest of the bus, the fetch, the register bank -/

/-- M18. -/
theorem test_console_in :
    look (run1 { pointing 0xF001 with cin := { pending := [0x48, 0x69], ended := false } } 0x8440)
      (fun t => (t.readReg 2, t.cin.pending)) = some (0x0048, [0x69]) := by decide
/-- M15. -/
theorem test_write_at_F0FF : look (run1 (base 0xFFFF 0xF0FF 0 (znc false false false)) 0x9040)
    (fun t => (t.mem.readByte 0xF0FF, t.mem.readByte 0xF100)) = some (0x00, 0x00) := by decide
/-- F1. -/
theorem test_fetch_bounds : look (step { baseAt 0xFFFF (znc false false false) with mem := [(0xFFFF, 0xF0)] })
    (fun t => (t.ir, t.pc, t.cycle, t.diag, t.halted)) =
      some (0x0000, 0x0001, 1, [.boundsViolation .read 0xFFFF], false) := by decide
/-- F6. -/
theorem test_fetch_straddles : look (step { baseAt 0xEFFF (znc false false false) with mem := [(0xF000, 0xF0)] })
    (fun t => (t.ir, t.pc, t.halted)) = some (0xF000, 0xF001, true) := by decide
/-- 95 section 7. -/
theorem test_register_bank :
    (State.reset.writeReg 3 0xABCD).readReg 3 = 0xABCD ∧ State.reset.readReg 8 = 0 ∧
      State.reset.writeReg 8 0x1234 = State.reset ∧ (State.reset.writeReg 0 5).readReg 0 = 5 := by decide
theorem test_withFetchWord : look (step (State.reset.withFetchWord 16 0xA5FF)) (fun t => (t.readReg 2, t.pc)) =
    some (0xFFFF, 0x0002) := by decide

/-! ## The assembler and the host's side -/

/-- Limits that no test meets. -/
def wide : AsmLimits := { maxBytes := 0xF000, maxLabels := 16 }

/-- R96: the source's example is six words. -/
theorem test_assemble_example :
    (assemble wide
      "LOADI R0,#5\nLOADI R1,#1\nloop:\nADD R1,R1,R0\nSUBI R0,R0,#1\nBNE loop ; again\nHALT".toList).toOption =
      some [0x05, 0xA0, 0x01, 0xA2, 0x40, 0x12, 0x01, 0x40, 0xFA, 0xDF, 0x00, 0xF0] := by decide
/-- R84, R89: LOAD with an offset, brackets and `+` as delimiters; P5's word 8041. -/
theorem test_assemble_load : (assemble wide "load r0, [R1 + 1]".toList).toOption = some [0x41, 0x80] := by decide
/-- D19: two different registers do not encode. -/
theorem test_assemble_refuses : assemble wide "\nADDI R0,R1,#1".toList =
    .error { line := 2, text := "ADDI R0,R1,#1".toList, kind := .badRegister } := by decide
/-- R93, D21: the first of two labels of one name wins. -/
theorem test_first_label_wins :
    (assemble wide "a: NOP\na: BRANCH a".toList).toOption = some [0x00, 0x00, 0xFC, 0xBF] := by decide
/-- Log 33, the model's choices: the first colon ends the label, a defined label may look like a number, and a
branch without an operand is an undefined label. -/
theorem test_assembler_choices :
    readLine "a: b: NOP".toList = { label := some "a".toList, body := some "b: NOP".toList } ∧
      (assemble wide "5: BRANCH 5".toList).toOption = some [0xFE, 0xBF] ∧
      assemble wide "BRANCH".toList = .error { line := 1, text := "BRANCH".toList, kind := .undefinedLabel } := by decide
/-- R192: a buffer that would pass 0x10000 is refused whole. -/
theorem test_load_refuses : loadBuffer [1, 2] 0xFFFF State.reset = none := by decide

/-! ## Witnesses: states and operands that meet the hypotheses of the obligations -/

theorem witness_EncodedAs : ∀ op : Fin 16, unsignedField (BitVec.ofNat 16 (op.val * 4096)) 12 4 = op.val := by decide
theorem witness_DecodeEncodeRoundTrip :
    (Instr.add 7 0 7).wellFormed = true ∧ (Instr.addi 7 (-256)).wellFormed = true ∧
      (Instr.load 0 7 31).wellFormed = true ∧ (Instr.branch 2047).wellFormed = true := by decide
theorem witness_EveryWordIsAnInstruction : ([] : List Byte).length < 2 ∧ ([0xA5] : List Byte).length < 2 := by decide
theorem witness_IgnoredBitsAreIgnored :
    (0x1050 : Word) &&& usedBits (unsignedField 0x1050 12 4) = 0x1057 &&& usedBits (unsignedField 0x1050 12 4) ∧
      (0xF000 : Word) &&& usedBits (unsignedField 0xF000 12 4) = 0xFFFF &&& usedBits (unsignedField 0xF000 12 4) := by
  decide
theorem witness_EncoderFollowsTheFormulas : 15 < 16 ∧ 7 < 8 := by decide
theorem witness_RegisterBankContract : 7 < 8 ∧ 8 ≤ 8 ∧ (1 : Nat) ≠ 0 := by decide
/-- One instruction for each of the two premises of `FlagsHaveTheirWriters`. -/
theorem witness_FlagsHaveTheirWriters :
    (∃ t, exec (.load 2 1 0) (pointing 0x0100) = .next t) ∧ (Instr.load 2 1 0).setsZN = false ∧
      (∃ t, exec (.sub 0 1 2) (pointing 0x0100) = .next t) ∧ (Instr.sub 0 1 2).setsCarry = false :=
  ⟨⟨_, rfl⟩, rfl, ⟨_, rfl⟩, rfl⟩
theorem witness_OnlyTheDestinationChanges :
    (∃ t, exec (.add 0 1 2) State.reset = .next t) ∧ (Instr.add 0 1 2).dest ≠ some 1 := ⟨⟨_, rfl⟩, by decide⟩
theorem witness_EffectiveAddressWraps :
    (∃ t, exec (.store 0 1 (-1)) (pointing 0) = .next t) ∧ (∃ t, exec (.load 0 1 0) (pointing 0x0100) = .next t) :=
  ⟨⟨_, rfl⟩, ⟨_, rfl⟩⟩
/-- The ends of plain storage. -/
theorem witness_LoadFromStorage :
    isPlain (effAddr (pointing 0x0020) 1 (-32)) = true ∧ isPlain (effAddr (pointing 0xEFFF) 1 0) = true ∧
      isPlain (effAddr (pointing 0xF100) 1 0) = true ∧ isPlain (effAddr (pointing 0xFFFF) 1 (-1)) = true := by decide
theorem witness_StoreToStorage : isPlain (effAddr (pointing 0xFFFE) 1 0) = true ∧ (pointing 0xFFFE).mem.wf := by decide
theorem witness_BoundsViolationContinues :
    effAddr (pointing 0x0000) 1 (-1) = 0xFFFF ∧ (0xFFFE : Word) ≠ 0xFFFF ∧
      ∃ v t, memRead 0xFFFE (pointing 0) = some (v, t) := ⟨by decide, by decide, _, _, rfl⟩
theorem witness_LoadFromDevices :
    effAddr (pointing 0xF000) 1 1 = 0xF001 ∧ effAddr (pointing 0xF003) 1 0 = 0xF003 ∧
      (supplyInput [0x41] (pointing 0xF001)).cin.pending = [0x41] ∧
      (endInput (pointing 0xF001)).cin.pending = [] ∧ (endInput (pointing 0xF001)).cin.ended = true ∧
      effAddr (pointing 0xF000) 1 0 = 0xF000 ∧ effAddr (pointing 0xF002) 1 0 = 0xF002 ∧
      effAddr (pointing 0xF004) 1 0 = 0xF004 ∧ effAddr (pointing 0xF0FF) 1 0 = 0xF0FF := by decide
theorem witness_LoadWaitsForInput : effAddr (pointing 0xF001) 1 0 = 0xF001 ∧ (pointing 0xF001).ConsoleBlocked :=
  ⟨by decide, rfl, rfl⟩
theorem witness_StoreToConsole : effAddr (pointing 0xF000) 1 0 = 0xF000 := by decide
theorem witness_StoreToOtherDevices :
    effAddr (pointing 0xF002) 1 0 = 0xF002 ∧ effAddr (pointing 0xF003) 1 0 = 0xF003 ∧
      effAddr (pointing 0xF001) 1 0 = 0xF001 ∧ (effAddr (pointing 0xF004) 1 0).toNat = 0xF004 ∧
      (effAddr (pointing 0xF0FF) 1 0).toNat = 0xF0FF := by decide
theorem witness_LoadAndStoreFrame :
    (∃ t, exec (.load 0 1 0) (pointing 0x0100) = .next t) ∧ (∃ t, exec (.store 0 1 0) (pointing 0xF000) = .next t) :=
  ⟨⟨_, rfl⟩, ⟨_, rfl⟩⟩
theorem witness_ReadAfterWrite : State.reset.mem.wf ∧ isPlain 0xEFFF = true ∧ isPlain 0xFFFE = true := by decide
theorem witness_MisalignedReadStraddles :
    State.reset.mem.wf ∧ isPlain 0xFFFC = true ∧ isPlain (0xFFFC + 1) = true ∧ isPlain (0xFFFC + 2) = true := by decide
theorem witness_FetchSeesTheStore :
    ∃ s t, s.mem.wf ∧ isPlain (effAddr s 1 0) = true ∧ exec (.store 0 1 0) s = .next t ∧ t.pc = effAddr s 1 0 :=
  ⟨{ pointing 0x0100 with pc := 0x0100 }, _, by decide, by decide, rfl, rfl⟩
/-- A step, and one that changes byte 0xF000. -/
theorem witness_DeviceBytesNeverChange :
    (∃ t, step State.reset = .next t) ∧
      look (run1 (base 0xABCD 0xEFFF 0 (znc false false false)) 0x9040) (fun t => t.mem.readByte 0xF000) ≠ some 0 :=
  ⟨⟨_, rfl⟩, by decide⟩
/-- A NOP fetched from memory never written, and a HALT. -/
theorem witness_NopResult : State.reset.halted = false ∧ ∃ u, fetch State.reset = some (0x0000, u) := ⟨rfl, _, rfl⟩
theorem witness_HaltResult :
    (placeWord State.reset 0xF000).halted = false ∧ ∃ u, fetch (placeWord State.reset 0xF000) = some (0xF000, u) :=
  ⟨rfl, _, rfl⟩
theorem witness_BranchesChangeOnlyPc :
    (∃ t, exec (.bne (-2)) State.reset = .next t) ∧ State.reset.flags.zero = false ∧
      (baseAt 0 (znc true true false)).flags.zero = true ∧ State.reset.flags.negative = false ∧
      (baseAt 0 (znc true true false)).flags.negative = true :=
  ⟨⟨_, rfl⟩, rfl, rfl, rfl, rfl⟩
/-- The two ends of the reach, and the branch S8 of the source. -/
theorem witness_AssembledBranchReachesItsLabel :
    branchImm 0x0010 0x000A = -8 ∧ branchImm 0x0900 0x0102 = -2048 ∧ branchImm 0x0100 0x0901 = 2047 ∧
      (baseAt 0x0012 (znc false false false)).pc = BitVec.ofNat 16 (0x0010 + 2) := by decide
theorem witness_UnknownOpcodeStops : 16 ≤ ({ decodeFields 0 with opcode := 16 }).opcode := by decide
theorem witness_StepRunsTheDecodedInstruction :
    (placeWord State.reset 0xA005).halted = false ∧ isPlain (placeWord State.reset 0xA005).pc = true ∧
      decodeWord (wordOfBytes ((placeWord State.reset 0xA005).mem.readByte 0)
        ((placeWord State.reset 0xA005).mem.readByte 1)) = .ok (.loadi 0 5) := by decide
theorem witness_FetchOutsideStorage :
    State.reset.halted = false ∧ (baseAt 0xFFFF (znc false false false)).pc = 0xFFFF ∧
      (supplyInput [0x41] (baseAt 0xF001 (znc false false false))).cin.pending = [0x41] ∧
      (endInput (baseAt 0xF001 (znc false false false))).cin.ended = true ∧
      (baseAt 0xF003 (znc false false false)).pc = 0xF003 ∧ (baseAt 0xF0FF (znc false false false)).pc.toNat = 0xF0FF := by
  decide
theorem witness_ConsoleBlocked : (baseAt 0xF001 (znc false false false)).ConsoleBlocked := ⟨rfl, rfl⟩
theorem witness_HaltedFlag :
    State.reset.halt.halted = true ∧ step State.reset.halt = .next State.reset.halt ∧
      ∃ t, run 1 State.reset.halt = .ended t := ⟨rfl, rfl, _, rfl⟩
theorem witness_OnlyHaltEndsTheRun :
    ∃ t, (placeWord State.reset 0xF000).halted = false ∧ step (placeWord State.reset 0xF000) = .next t ∧
      t.halted = true := ⟨_, rfl, rfl, rfl⟩
/-- Both ways of the wait, by the fetch and by a LOAD. -/
theorem witness_StepCompletesUnlessItWaits :
    step (baseAt 0xF001 (znc false false false)) = .fault .consoleInputWait ∧
      run1 (pointing 0xF001) 0x8440 = .fault .consoleInputWait := ⟨rfl, rfl⟩
theorem witness_CycleCountsSteps : ∃ t, step State.reset = .next t := ⟨_, rfl⟩
theorem witness_StepKeepsTheInvariant : State.reset.Inv ∧ ∃ t, step State.reset = .next t :=
  ⟨⟨rfl, rfl, by decide⟩, _, rfl⟩
theorem witness_ReportsAndOutputOnlyGrow : ∃ t, step (baseAt 0xFFFF (znc false false false)) = .next t := ⟨_, rfl⟩
theorem witness_UnseenStateNeverMatters :
    SameVisible State.reset { State.reset with debug := true, timerEnabled := true, timerReg := 7, cycle := 3 } :=
  ⟨rfl, rfl, rfl, rfl, rfl, rfl, rfl, rfl⟩
theorem witness_DebugHasNoEffect :
    (∃ t, step State.reset = .next t) ∧ step (baseAt 0xF001 (znc false false false)) = .fault .consoleInputWait :=
  ⟨⟨_, rfl⟩, rfl⟩
theorem witness_LoadBufferFillsMemory :
    0x10000 < 0xFFFF + ([1, 2] : List Byte).length ∧ 0xFFFE + ([1, 2] : List Byte).length ≤ 0x10000 ∧
      State.reset.mem.wf := by decide
theorem witness_BootRunsTheFirstWord : ([] : List Byte).length + 2 ≤ 0x10000 := by decide
theorem witness_RunRepeatsStep :
    State.reset.halted = false ∧ (∃ t, step State.reset = .next t) ∧ (0 : Nat) ≤ 1 ∧
      run 0 State.reset.halt = .ended State.reset.halt := ⟨rfl, ⟨_, rfl⟩, by decide, rfl⟩
theorem witness_AssemblerEmitsWholeWords : ∃ bytes, assemble wide "HALT".toList = .ok bytes := ⟨[0x00, 0xF0], by decide⟩

end Sys2Proof.Tests
end

section
/-!
PROOFS. The statements of spec/10_state.md: the register bank (O7), and the debug flag without effect (O54).

O54 turns on one idea: every operation a step is made of commutes with `State.setDebug`, so the step does too. That
a step keeps the flag follows, since setting the flag to the value it has is no change.
-/

namespace Sys2Proof.Machine

/-! ## The register bank -/

/-- A write outside the bank is no write (R13). -/
theorem State.writeReg_of_ge (s : State) {i : Nat} (h : 8 ≤ i) (v : Word) : s.writeReg i v = s := by
  simp [State.writeReg, Vector.setIfInBounds_eq_of_size_le h]

/-- Settles O7, from the bank's read, read-after-write and out-of-range lemmas. -/
theorem registerBankContract : Obligations.RegisterBankContract := by
  unfold Obligations.RegisterBankContract
  refine ⟨fun s i => s.readReg_of_lt, fun s i => s.readReg_of_ge, ?_, ?_, fun s i v h => s.writeReg_of_ge h v, ?_⟩
  · intro s i v hi
    simp [hi]
  · intro s i k v hk
    simp [hk]
  · intro s i v
    rfl

/-! ## The debug flag: every operation commutes with setting it -/

/-- An outcome with its next state, if it has one, changed by `f`. -/
def mapNext (f : State → State) : Host.Outcome State Fault Refusal → Host.Outcome State Fault Refusal
  | .next s => .next (f s)
  | .fault r => .fault r
  | .refused r => .refused r

@[simp] theorem mapNext_next (f : State → State) (s : State) : mapNext f (.next s) = .next (f s) := rfl
@[simp] theorem mapNext_fault (f : State → State) (r : Fault) : mapNext f (.fault r) = .fault r := rfl

@[simp] theorem State.setDebug_self (s : State) : s.setDebug s.debug = s := rfl

theorem consoleNext_setDebug (s : State) (b : Bool) :
    consoleNext (s.setDebug b) = (consoleNext s).map (Prod.map id (·.setDebug b)) := by
  unfold consoleNext
  rw [State.setDebug_cin]
  cases s.cin.pending with
  | cons c rest => rfl
  | nil => cases s.cin.ended <;> rfl

theorem deviceRead_setDebug (a : Word) (s : State) (b : Bool) :
    deviceRead a (s.setDebug b) = (deviceRead a s).map (Prod.map id (·.setDebug b)) := by
  unfold deviceRead
  split
  · exact consoleNext_setDebug s b
  · split <;> rfl

theorem memRead_setDebug (a : Word) (s : State) (b : Bool) :
    memRead a (s.setDebug b) = (memRead a s).map (Prod.map id (·.setDebug b)) := by
  rcases address_cases a with rfl | hp | hm
  · simp only [memRead_lastAddr]; rfl
  · simp only [memRead_of_isPlain _ hp]; rfl
  · simp only [memRead_of_mmio _ hm, deviceRead_setDebug]

theorem deviceWrite_setDebug (a v : Word) (s : State) (b : Bool) :
    deviceWrite a v (s.setDebug b) = (deviceWrite a v s).setDebug b := by
  unfold deviceWrite
  iterate 3
    split
    · rfl
  rfl

theorem memWrite_setDebug (a v : Word) (s : State) (b : Bool) :
    memWrite a v (s.setDebug b) = (memWrite a v s).setDebug b := by
  rcases address_cases a with rfl | hp | hm
  · simp only [memWrite_lastAddr]; rfl
  · simp only [memWrite_of_isPlain _ _ hp]; rfl
  · simp only [memWrite_of_mmio _ _ hm, deviceWrite_setDebug]

theorem branchIf_setDebug (cond : Bool) (imm12 : Int) (s : State) (b : Bool) :
    branchIf cond imm12 (s.setDebug b) = (branchIf cond imm12 s).setDebug b := by
  cases cond <;> rfl

@[simp] theorem effAddr_setDebug (s : State) (b : Bool) (rs1 : Nat) (offset6 : Int) :
    effAddr (s.setDebug b) rs1 offset6 = effAddr s rs1 offset6 := rfl

theorem execLoad_setDebug (rd rs1 : Nat) (offset6 : Int) (s : State) (b : Bool) :
    execLoad rd rs1 offset6 (s.setDebug b) = mapNext (·.setDebug b) (execLoad rd rs1 offset6 s) := by
  unfold execLoad
  rw [effAddr_setDebug, memRead_setDebug]
  cases memRead (effAddr s rs1 offset6) s <;> rfl

/-- No instruction reads or writes the debug flag (R29). -/
theorem exec_setDebug (i : Instr) (s : State) (b : Bool) :
    exec i (s.setDebug b) = mapNext (·.setDebug b) (exec i s) := by
  cases i with
  | load rd rs1 offset6 => exact execLoad_setDebug rd rs1 offset6 s b
  | store rd rs1 offset6 => exact congrArg Host.Outcome.next (memWrite_setDebug _ _ s b)
  | branch imm12 | beq imm12 | bne imm12 | blt imm12 =>
    exact congrArg Host.Outcome.next (branchIf_setDebug _ imm12 s b)
  | _ => rfl

theorem fetch_setDebug (s : State) (b : Bool) :
    fetch (s.setDebug b) = (fetch s).map (Prod.map id (·.setDebug b)) := by
  unfold fetch
  rw [State.setDebug_pc, memRead_setDebug]
  cases memRead s.pc s <;> rfl

theorem execute_setDebug (a : Word) (d : Decoded) (s : State) (b : Bool) :
    execute a d (s.setDebug b) = mapNext (·.setDebug b) (execute a d s) := by
  unfold execute
  cases d.toInstr with
  | ok i => exact exec_setDebug i s b
  | error e => rfl

theorem countCycle_mapNext_setDebug (o : Host.Outcome State Fault Refusal) (b : Bool) :
    countCycle (mapNext (·.setDebug b) o) = mapNext (·.setDebug b) (countCycle o) := by
  cases o <;> rfl

theorem fetchExecute_setDebug (s : State) (b : Bool) :
    fetchExecute (s.setDebug b) = mapNext (·.setDebug b) (fetchExecute s) := by
  unfold fetchExecute
  rw [fetch_setDebug]
  cases fetch s with
  | none => rfl
  | some r =>
    obtain ⟨w, t⟩ := r
    calc countCycle (execute s.pc (decodeFields w) (t.setDebug b))
      _ = countCycle (mapNext (·.setDebug b) (execute s.pc (decodeFields w) t)) := by rw [execute_setDebug]
      _ = mapNext (·.setDebug b) (countCycle (execute s.pc (decodeFields w) t)) := countCycle_mapNext_setDebug _ b

/-- A step commutes with setting the debug flag (R29). -/
theorem step_setDebug (s : State) (b : Bool) : step (s.setDebug b) = mapNext (·.setDebug b) (step s) := by
  unfold step
  rw [State.setDebug_halted]
  split
  · rfl
  · exact fetchExecute_setDebug s b

/-- A step keeps the debug flag: setting it first to the value it has changes nothing (R29). -/
theorem step_debug {s t : State} (h : step s = .next t) : t.debug = s.debug := by
  have hset := step_setDebug s s.debug
  rw [State.setDebug_self, h, mapNext_next, Host.Outcome.next.injEq] at hset
  rw [hset, State.setDebug_debug]

/-- Settles O54: a step commutes with setting the flag, and therefore keeps it. -/
theorem debugHasNoEffect : Obligations.DebugHasNoEffect := by
  unfold Obligations.DebugHasNoEffect
  intro s b
  refine ⟨fun t h => ⟨?_, step_debug h⟩, fun f h => ?_⟩
  · rw [step_setDebug, h, mapNext_next]
  · rw [step_setDebug, h, mapNext_fault]

end Sys2Proof.Machine
end

section
/-!
PROOFS. The statements of spec/30_encoding.md: the decoder and the encoder undo each other (O1), and the immediates
extend their sign (O5).

O1 turns on one equivalence, `decodeWord_eq_ok_iff`: a word decodes to an instruction exactly when it holds that
instruction's opcode and the fields its format names. One direction of the round trip then reads the fields of an
encoder's word, the other puts a word together again from its fields.
-/

namespace Sys2Proof

open Machine

/-! ## Immediates -/

/-- R74 to R76: below the field's width a bit is the word's, from there on it is the field's sign bit. -/
theorem sextField_getLsbD (w : Word) {len k : Nat} (hpos : 0 < len) (hk : k < 16) :
    (sextField w len).getLsbD k = if k < len then w.getLsbD k else w.getLsbD (len - 1) := by
  rw [sextField, BitVec.getLsbD_signExtend, BitVec.msb_eq_getLsbD_last]
  split <;> simp [*]

/-- The number of R8 is the two's complement number of the field's bits. -/
theorem signedField_eq_toInt (w : Word) {len : Nat} (hpos : 0 < len) :
    signedField w len = (w.extractLsb' 0 len).toInt := by
  rw [signedField, BitVec.toInt_eq_msb_cond, BitVec.msb_eq_getLsbD_last]
  simp [unsignedField, hpos]

theorem sextField_toInt_eq_signedField (w : Word) {len : Nat} (hpos : 0 < len) (hlen : len ≤ 16) :
    (sextField w len).toInt = signedField w len := by
  rw [sextField_toInt w hlen, signedField_eq_toInt w hpos]

/-- Settles O5, each immediate being a sign-extended field of its own width. -/
theorem immediatesSignExtend : Obligations.ImmediatesSignExtend := by
  unfold Obligations.ImmediatesSignExtend
  intro w
  refine ⟨fun k hk => ⟨?_, ?_, ?_⟩, ?_, ?_, ?_⟩
  · exact sextField_getLsbD w (by decide) hk
  · exact sextField_getLsbD w (by decide) hk
  · exact sextField_getLsbD w (by decide) hk
  · exact sextField_toInt_eq_signedField w (by decide) (by decide)
  · exact sextField_toInt_eq_signedField w (by decide) (by decide)
  · exact sextField_toInt_eq_signedField w (by decide) (by decide)

/-! ## What a word decodes to -/

/-- The operands of an instruction are the fields its format names in the word (R72). -/
def Instr.HasFieldsOf (w : Word) : Instr → Prop
  | .nop | .halt => True
  | .add rd rs1 rs2 | .sub rd rs1 rs2 | .and rd rs1 rs2 | .or rd rs1 rs2 | .xor rd rs1 rs2 =>
    rd = unsignedField w 9 3 ∧ rs1 = unsignedField w 6 3 ∧ rs2 = unsignedField w 3 3
  | .addi rd imm9 | .subi rd imm9 | .loadi rd imm9 => rd = unsignedField w 9 3 ∧ imm9 = signedField w 9
  | .load rd rs1 offset6 | .store rd rs1 offset6 =>
    rd = unsignedField w 9 3 ∧ rs1 = unsignedField w 6 3 ∧ offset6 = signedField w 6
  | .branch imm12 | .beq imm12 | .bne imm12 | .blt imm12 => imm12 = signedField w 12

/-- A word decodes to an instruction exactly when it holds its opcode and, as its operands, the fields of its
format (R72, R78). -/
theorem decodeWord_eq_ok_iff (w : Word) (i : Instr) :
    decodeWord w = .ok i ↔ unsignedField w 12 4 = i.opcode ∧ i.HasFieldsOf w := by
  constructor
  · intro h
    unfold decodeWord Decoded.toInstr at h
    -- The branch of no opcode closes here; every other names the instruction of its opcode.
    split at h <;> cases h
    all_goals
      next hop =>
      refine ⟨hop, ?_⟩
      simp [Instr.HasFieldsOf, decodeFields, sextField_toInt_eq_signedField]
  · rintro ⟨hop, hfields⟩
    obtain ⟨-, h9, h12, h6⟩ := immediatesSignExtend w
    unfold decodeWord Decoded.toInstr
    rw [show (decodeFields w).opcode = i.opcode from hop, h9, h12, h6]
    cases i with
    | nop | halt => rfl
    | add | sub | and | or | xor => obtain ⟨rfl, rfl, rfl⟩ := hfields; rfl
    | addi | subi | loadi => obtain ⟨rfl, rfl⟩ := hfields; rfl
    | load | store => obtain ⟨rfl, rfl, rfl⟩ := hfields; rfl
    | branch | beq | bne | blt => obtain rfl := hfields; rfl

/-! ## Every operand of a decoded word fits its field -/

@[simp] theorem regOk_unsignedField (w : Word) (lsb : Nat) : regOk (unsignedField w lsb 3) = true :=
  decide_eq_true (unsignedField_lt w lsb 3)

/-- A `len`-bit signed number lies between its two ends (R74 to R76). -/
theorem signedField_bounds (w : Word) {len : Nat} (hpos : 0 < len) :
    -2 ^ (len - 1) ≤ signedField w len ∧ signedField w len < 2 ^ (len - 1) := by
  rw [signedField_eq_toInt w hpos]
  exact ⟨BitVec.le_toInt _, BitVec.toInt_lt⟩

@[simp] theorem imm9Ok_signedField (w : Word) : imm9Ok (signedField w 9) = true := by
  have := signedField_bounds w (len := 9) (by decide)
  simp only [imm9Ok, decide_eq_true_eq]; omega

@[simp] theorem imm12Ok_signedField (w : Word) : imm12Ok (signedField w 12) = true := by
  have := signedField_bounds w (len := 12) (by decide)
  simp only [imm12Ok, decide_eq_true_eq]; omega

@[simp] theorem offset6Ok_signedField (w : Word) : offset6Ok (signedField w 6) = true := by
  have := signedField_bounds w (len := 6) (by decide)
  simp only [offset6Ok, decide_eq_true_eq]; omega

theorem Instr.HasFieldsOf.wellFormed {w : Word} {i : Instr} (h : i.HasFieldsOf w) : i.wellFormed = true := by
  cases i with
  | nop | halt => rfl
  | add | sub | and | or | xor => obtain ⟨rfl, rfl, rfl⟩ := h; simp [Instr.wellFormed]
  | addi | subi | loadi => obtain ⟨rfl, rfl⟩ := h; simp [Instr.wellFormed]
  | load | store => obtain ⟨rfl, rfl, rfl⟩ := h; simp [Instr.wellFormed]
  | branch | beq | bne | blt => obtain rfl := h; simp [Instr.wellFormed]

/-! ## The fields of an encoder's word -/

/-- An encoded instruction has its opcode, and 0 in the bits its format ignores (R78, R82). -/
theorem encodedOpcode : ∀ i : Instr, Laws.EncodedOpcode.Statement i
  | .nop => Laws.EncodedOpcode.nop
  | .add .. => Laws.EncodedOpcode.add ..
  | .addi .. => Laws.EncodedOpcode.addi ..
  | .sub .. => Laws.EncodedOpcode.sub ..
  | .subi .. => Laws.EncodedOpcode.subi ..
  | .and .. => Laws.EncodedOpcode.and ..
  | .or .. => Laws.EncodedOpcode.or ..
  | .xor .. => Laws.EncodedOpcode.xor ..
  | .load .. => Laws.EncodedOpcode.load ..
  | .store .. => Laws.EncodedOpcode.store ..
  | .loadi .. => Laws.EncodedOpcode.loadi ..
  | .branch .. => Laws.EncodedOpcode.branch ..
  | .beq .. => Laws.EncodedOpcode.beq ..
  | .bne .. => Laws.EncodedOpcode.bne ..
  | .blt .. => Laws.EncodedOpcode.blt ..
  | .halt => Laws.EncodedOpcode.halt

/-- A signed field is the balanced remainder of the word by `2 ^ len`. -/
theorem signedField_eq_bmod (w : Word) {len : Nat} (hpos : 0 < len) (hlen : len ≤ 16) :
    signedField w len = (w.toNat : Int).bmod (2 ^ len) := by
  rw [signedField_eq_toInt w hpos, ← BitVec.setWidth_eq_extractLsb' hlen, BitVec.toInt_setWidth]

theorem encodeR_fields (op : Nat) {rd rs1 rs2 : Nat} (hrd : rd < 8) (hrs1 : rs1 < 8) (hrs2 : rs2 < 8) :
    rd = unsignedField (encodeR op rd rs1 rs2) 9 3 ∧ rs1 = unsignedField (encodeR op rd rs1 rs2) 6 3 ∧
      rs2 = unsignedField (encodeR op rd rs1 rs2) 3 3 := by
  simp only [unsignedField_eq, encodeR_toNat]; omega

theorem encodeI_fields (op : Nat) {rd : Nat} {imm : Int} (hrd : rd < 8) (himm : -256 ≤ imm ∧ imm ≤ 255) :
    rd = unsignedField (encodeI op rd imm) 9 3 ∧ imm = signedField (encodeI op rd imm) 9 := by
  rw [eq_comm (a := imm), signedField_eq_bmod _ (by decide) (by decide), Int.bmod_eq_iff (by decide)]
  simp only [unsignedField_eq, encodeI_toNat]; omega

theorem encodeM_fields (op : Nat) {rd rs1 : Nat} {off : Int} (hrd : rd < 8) (hrs1 : rs1 < 8)
    (hoff : -32 ≤ off ∧ off ≤ 31) :
    rd = unsignedField (encodeM op rd rs1 off) 9 3 ∧ rs1 = unsignedField (encodeM op rd rs1 off) 6 3 ∧
      off = signedField (encodeM op rd rs1 off) 6 := by
  rw [eq_comm (a := off), signedField_eq_bmod _ (by decide) (by decide), Int.bmod_eq_iff (by decide)]
  simp only [unsignedField_eq, encodeM_toNat]; omega

theorem encodeB_field (op : Nat) {imm : Int} (himm : -2048 ≤ imm ∧ imm ≤ 2047) :
    imm = signedField (encodeB op imm) 12 := by
  rw [eq_comm, signedField_eq_bmod _ (by decide) (by decide), Int.bmod_eq_iff (by decide), encodeB_toNat]
  omega

/-- The operands of a well-formed instruction stand in the fields of its encoding (R82, R83). -/
theorem encode_hasFieldsOf {i : Instr} (h : i.wellFormed = true) : i.HasFieldsOf (encode i) := by
  cases i with
  | nop | halt => trivial
  | add | sub | and | or | xor =>
    simp only [Instr.wellFormed, regOk, Bool.and_eq_true, decide_eq_true_eq] at h
    obtain ⟨⟨hrd, hrs1⟩, hrs2⟩ := h
    exact encodeR_fields _ hrd hrs1 hrs2
  | addi | subi | loadi =>
    simp only [Instr.wellFormed, regOk, imm9Ok, Bool.and_eq_true, decide_eq_true_eq] at h
    obtain ⟨hrd, himm⟩ := h
    exact encodeI_fields _ hrd himm
  | load | store =>
    simp only [Instr.wellFormed, regOk, offset6Ok, Bool.and_eq_true, decide_eq_true_eq] at h
    obtain ⟨⟨hrd, hrs1⟩, hoff⟩ := h
    exact encodeM_fields _ hrd hrs1 hoff
  | branch | beq | bne | blt =>
    simp only [Instr.wellFormed, imm12Ok, decide_eq_true_eq] at h
    exact encodeB_field _ h

/-- Encoding then decoding recovers the instruction (R83). -/
theorem decodeWord_encode {i : Instr} (h : i.wellFormed = true) : decodeWord (encode i) = .ok i :=
  (decodeWord_eq_ok_iff _ i).2 ⟨(encodedOpcode i).1, encode_hasFieldsOf h⟩

/-! ## A word put together again from its fields -/

/-- Writing 0 for the low `n` bits of a word masks them out. -/
theorem extractLsb'_append_zero {m n : Nat} (w : BitVec (m + n)) :
    w.extractLsb' n m ++ 0#n = w &&& (BitVec.allOnes (m + n) <<< n) := by
  ext k hk
  by_cases h : k < n
  · simp [BitVec.getElem_append, h]
  · have : n + (k - n) = k := by omega
    simp [BitVec.getElem_append, h, this, BitVec.getLsbD_eq_getElem hk]

/-- The bits of a field, read as a number and written again. -/
theorem ofNat_unsignedField (w : Word) (lsb len : Nat) :
    BitVec.ofNat len (unsignedField w lsb len) = w.extractLsb' lsb len := by
  rw [unsignedField, BitVec.ofNat_toNat, BitVec.setWidth_eq]

theorem ofInt_signedField (w : Word) {len : Nat} (hpos : 0 < len) :
    BitVec.ofInt len (signedField w len) = w.extractLsb' 0 len := by
  rw [signedField_eq_toInt w hpos, BitVec.ofInt_toInt]

section
variable {w : Word} {op : Nat} (hop : unsignedField w 12 4 = op)
include hop

theorem encodeN_of_fields : encodeN op = w &&& 0xF000 := by
  rw [encodeN, ← hop, ofNat_unsignedField]
  exact extractLsb'_append_zero (m := 4) (n := 12) w

theorem encodeR_of_fields :
    encodeR op (unsignedField w 9 3) (unsignedField w 6 3) (unsignedField w 3 3) = w &&& 0xFFF8 := by
  simp (disch := decide) only [encodeR, ← hop, ofNat_unsignedField,
    BitVec.extractLsb'_append_extractLsb'_eq_extractLsb']
  exact extractLsb'_append_zero (m := 13) (n := 3) w

theorem encodeI_of_fields : encodeI op (unsignedField w 9 3) (signedField w 9) = w := by
  simp (disch := decide) only [encodeI, ← hop, ofNat_unsignedField, ofInt_signedField,
    BitVec.extractLsb'_append_extractLsb'_eq_extractLsb']
  exact BitVec.extractLsb'_eq_self

theorem encodeM_of_fields :
    encodeM op (unsignedField w 9 3) (unsignedField w 6 3) (signedField w 6) = w := by
  simp (disch := decide) only [encodeM, ← hop, ofNat_unsignedField, ofInt_signedField,
    BitVec.extractLsb'_append_extractLsb'_eq_extractLsb']
  exact BitVec.extractLsb'_eq_self

theorem encodeB_of_field : encodeB op (signedField w 12) = w := by
  simp (disch := decide) only [encodeB, ← hop, ofNat_unsignedField, ofInt_signedField,
    BitVec.extractLsb'_append_extractLsb'_eq_extractLsb']
  exact BitVec.extractLsb'_eq_self

end

/-- Decoding then encoding clears the ignored bits and keeps the others (R79, R83). -/
theorem encode_of_decodeWord {w : Word} {i : Instr} (h : decodeWord w = .ok i) :
    encode i = w &&& usedBits (unsignedField w 12 4) := by
  obtain ⟨hop, hfields⟩ := (decodeWord_eq_ok_iff w i).1 h
  rw [hop]
  cases i with
  | nop | halt => exact encodeN_of_fields hop
  | add | sub | and | or | xor =>
    obtain ⟨rfl, rfl, rfl⟩ := hfields
    exact encodeR_of_fields hop
  | addi | subi | loadi =>
    obtain ⟨rfl, rfl⟩ := hfields
    exact (encodeI_of_fields hop).trans (Laws.EncodedOpcode.and_usedBits_all w).symm
  | load | store =>
    obtain ⟨rfl, rfl, rfl⟩ := hfields
    exact (encodeM_of_fields hop).trans (Laws.EncodedOpcode.and_usedBits_all w).symm
  | branch | beq | bne | blt =>
    obtain rfl := hfields
    exact (encodeB_of_field hop).trans (Laws.EncodedOpcode.and_usedBits_all w).symm

/-- Settles O1: each direction reads the opcode and the fields off `decodeWord_eq_ok_iff`; that every word decodes at
all is the totality of `Decoded.toInstr` on the 16 opcodes. -/
theorem decodeEncodeRoundTrip : Obligations.DecodeEncodeRoundTrip := by
  unfold Obligations.DecodeEncodeRoundTrip
  refine ⟨fun i h => decodeWord_encode h, fun w => ?_⟩
  obtain ⟨i, hi, -⟩ := (decodeFields w).toInstr_of_lt (decodeFields_opcode_lt w)
  have hfields := ((decodeWord_eq_ok_iff w i).1 hi).2
  exact ⟨i, hi, hfields.wellFormed, encode_of_decodeWord hi⟩

end Sys2Proof
end

section
/-!
PROOFS. The statements of spec/41_alu.md: ADD (O8), AND (O12), OR (O13), XOR (O14) and LOADI (O15).

All rest on one shape: an ALU instruction writes one word to one register and then sets the flags, so its whole effect
is `(s.writeReg rd r).setFlags f`. What is left per instruction is the number its result denotes and the flags.
-/

namespace Sys2Proof.Machine

/-- A word holding the opcode and the fields of `f w` decodes to it (R72, R78). -/
theorem encodedAs_of_hasFieldsOf {op : Nat} {f : Word → Instr} (hop : ∀ w, (f w).opcode = op)
    (hfields : ∀ w, (f w).HasFieldsOf w) : EncodedAs op f :=
  fun w h => (decodeWord_eq_ok_iff w (f w)).2 ⟨h.trans (hop w).symm, hfields w⟩

theorem writesReg_writeReg_setFlags (rd : Nat) (r : Word) (f : Flags) (s : State) :
    WritesReg rd r.toNat s ((s.writeReg rd r).setFlags f) := by
  constructor
  · intro hrd
    simp [hrd]
  · intro k hk
    have hne : ¬(k = rd ∧ rd < 8) := by omega
    simp [hne]

/-- An instruction that writes `r` to `rd` and then sets the flags to `f` does nothing else. -/
theorem completesAlu_of_exec {i : Instr} {s : State} {rd : Nat} {r : Word} {f : Flags}
    (h : exec i s = .next ((s.writeReg rd r).setFlags f)) : CompletesAlu i s rd r.toNat f :=
  ⟨_, h, writesReg_writeReg_setFlags rd r f s, rfl, rfl, ⟨rfl, rfl, rfl, rfl, rfl⟩, fun _ => rfl,
    ⟨rfl, rfl, rfl, rfl, rfl, rfl⟩⟩

/-! ## The flags of a result -/

theorem isZero_eq_decide (r : Word) : isZero r = decide (r.toNat = 0) := by
  rw [isZero, decide_eq_decide]
  exact BitVec.toNat_eq

/-- Bit 15 is set exactly from 2^15 on (R22). -/
theorem isNegative_eq_decide (r : Word) : isNegative r = decide (2 ^ 15 ≤ r.toNat) :=
  BitVec.msb_eq_decide r

/-- The seven computing instructions write their result and set Z and N from the number it denotes (R22). -/
theorem writeResult_eq_setFlags (rd : Nat) (r : Word) (s : State) :
    writeResult rd r s = (s.writeReg rd r).setFlags (zn r.toNat s) := by
  rw [zn, ← isZero_eq_decide, ← isNegative_eq_decide]
  rfl

theorem completesAlu_of_exec_writeResult {i : Instr} {s : State} {rd : Nat} {r : Word}
    (h : exec i s = .next (writeResult rd r s)) : CompletesAlu i s rd r.toNat (zn r.toNat s) :=
  completesAlu_of_exec (h.trans (congrArg Host.Outcome.next (writeResult_eq_setFlags rd r s)))

/-! ## The instructions -/

theorem exec_add (rd rs1 rs2 : Nat) (s : State) :
    exec (.add rd rs1 rs2) s = .next ((s.writeReg rd (s.readReg rs1 + s.readReg rs2)).setFlags
      { zn (s.readReg rs1 + s.readReg rs2).toNat s with carry := carryOut (s.readReg rs1) (s.readReg rs2) }) := by
  rw [exec, execAdd, writeResult_eq_setFlags]
  rfl

/-- Settles O8: the result is the sum of the two words, and C its carry out. -/
theorem addResult : Obligations.AddResult := by
  unfold Obligations.AddResult
  refine ⟨encodedAs_of_hasFieldsOf (fun _ => rfl) (fun _ => ⟨rfl, rfl, rfl⟩), fun rd rs1 rs2 s => ?_⟩
  rw [← BitVec.toNat_add]
  exact completesAlu_of_exec (exec_add rd rs1 rs2 s)

/-- Settles O12: the and of two words denotes the and of their numbers, so the shared completion lemma applies. -/
theorem andResult : Obligations.AndResult := by
  unfold Obligations.AndResult
  refine ⟨encodedAs_of_hasFieldsOf (fun _ => rfl) (fun _ => ⟨rfl, rfl, rfl⟩), fun rd rs1 rs2 s => ?_⟩
  rw [← BitVec.toNat_and]
  exact completesAlu_of_exec_writeResult rfl

/-- Settles O13, as `andResult`, with the or of the two words. -/
theorem orResult : Obligations.OrResult := by
  unfold Obligations.OrResult
  refine ⟨encodedAs_of_hasFieldsOf (fun _ => rfl) (fun _ => ⟨rfl, rfl, rfl⟩), fun rd rs1 rs2 s => ?_⟩
  rw [← BitVec.toNat_or]
  exact completesAlu_of_exec_writeResult rfl

/-- Settles O14, as `andResult`, with the exclusive-or of the two words. -/
theorem xorResult : Obligations.XorResult := by
  unfold Obligations.XorResult
  refine ⟨encodedAs_of_hasFieldsOf (fun _ => rfl) (fun _ => ⟨rfl, rfl, rfl⟩), fun rd rs1 rs2 s => ?_⟩
  rw [← BitVec.toNat_xor]
  exact completesAlu_of_exec_writeResult rfl

/-- The word of an immediate denotes it modulo 2^16 (R8, R77). -/
theorem immWord_toNat (v : Int) : (immWord v).toNat = (v % 2 ^ 16).toNat := BitVec.toNat_ofInt v

/-- Settles O15: setting the flags to what they are is no change. -/
theorem loadiResult : Obligations.LoadiResult := by
  unfold Obligations.LoadiResult
  refine ⟨encodedAs_of_hasFieldsOf (fun _ => rfl) (fun _ => ⟨rfl, rfl⟩), fun rd imm9 s => ?_⟩
  rw [← immWord_toNat]
  exact completesAlu_of_exec rfl

end Sys2Proof.Machine
end

section
/-!
PROOFS. The statements of spec/42_load_store.md: the effective address (O19).

The bus never writes a register, so LOAD changes the bank only by its own write of `rd`, and STORE not at all.
-/

namespace Sys2Proof.Machine

/-! ## The bus leaves the register bank alone -/

/-- A word read changes no register (R58). -/
theorem memRead_readReg {a v : Word} {s t : State} (h : memRead a s = some (v, t)) (k : Nat) :
    t.readReg k = s.readReg k := by
  rw [memRead_changes h]
  rfl

/-- A word write changes no register (R58). -/
@[simp] theorem memWrite_readReg (a v : Word) (s : State) (k : Nat) : (memWrite a v s).readReg k = s.readReg k := by
  rw [memWrite_changes]
  rfl

/-! ## LOAD and STORE -/

/-- A LOAD that completes is a word read at the effective address, then the write of `rd` (R140). -/
theorem exec_load_eq_next {rd rs1 : Nat} {off : Int} {s t : State} (h : exec (.load rd rs1 off) s = .next t) :
    ∃ v u, memRead (effAddr s rs1 off) s = some (v, u) ∧ t = u.writeReg rd v := by
  rw [exec, execLoad] at h
  split at h
  · next v u hread =>
    cases h
    exact ⟨v, u, hread, rfl⟩
  · cases h

/-- A LOAD changes no register but its destination (R140, R143). -/
theorem exec_load_readReg {rd rs1 : Nat} {off : Int} {s t : State} (h : exec (.load rd rs1 off) s = .next t)
    {k : Nat} (hk : k ≠ rd) : t.readReg k = s.readReg k := by
  obtain ⟨v, u, hread, rfl⟩ := exec_load_eq_next h
  simp [hk, memRead_readReg hread]

/-- A STORE changes no register (R141, R143). -/
theorem exec_store_readReg {rd rs1 : Nat} {off : Int} {s t : State} (h : exec (.store rd rs1 off) s = .next t)
    (k : Nat) : t.readReg k = s.readReg k := by
  cases h
  exact memWrite_readReg _ _ s k

/-! ## The effective address -/

/-- The word of an immediate, added to a base, denotes the exact sum modulo 2^16 (R8, R77). -/
theorem toNat_add_immWord (b : Word) (v : Int) : ((b + immWord v).toNat : Int) = (b.toNat + v) % 2 ^ 16 := by
  rw [BitVec.toNat_add, immWord_toNat]
  omega

/-- Settles O19: the displacement is added as an integer modulo 2^16, the bus writes no register, and the bounds check
rejects the last address alone. -/
theorem effectiveAddressWraps : Obligations.EffectiveAddressWraps := by
  unfold Obligations.EffectiveAddressWraps
  exact ⟨fun s rs1 off => toNat_add_immWord (s.readReg rs1) off, fun _ rs1 _ _ _ h => exec_store_readReg h rs1,
    fun _ _ _ _ _ h hne => exec_load_readReg h hne, outOfBounds_iff⟩

end Sys2Proof.Machine
end

section
/-!
PROOFS. The statements of spec/43_control_flow.md: NOP (O32), HALT (O37), and what a branch leaves alone (O38).

The step around an instruction is `step_of_fetch`; what it counts is the cycle of the state before the fetch, which the
fetch keeps. The four branches are one function, `branchIf`, on four conditions.
-/

namespace Sys2Proof.Machine

/-! ## The step around an instruction -/

/-- A fetch leaves the word in `ir` and `pc` past it, and counts nothing (R110). -/
theorem fetch_control {s u : State} {w : Word} (h : fetch s = some (w, u)) :
    u.ir = w ∧ u.pc = s.pc + 2 ∧ u.cycle = s.cycle := by
  rw [fetch_changes h]
  exact ⟨rfl, rfl, rfl⟩

/-- A step of a running core whose decoded instruction completes without touching `cycle` adds 1 to it (R110). -/
theorem step_of_exec_eq_next {s u v : State} {w : Word} {i : Instr} (hh : s.halted = false)
    (hf : fetch s = some (w, u)) (hi : decodeWord w = .ok i) (hx : exec i u = .next v) (hv : v.cycle = u.cycle) :
    step s = .next { v with cycle := s.cycle + 1 } := by
  obtain ⟨-, -, hcycle⟩ := fetch_control hf
  calc step s
    _ = .next v.tick := by rw [step_of_fetch hh hf hi, hx, countCycle]
    _ = .next { v with cycle := s.cycle + 1 } := by rw [State.tick, hv, hcycle]

/-- A halted core stays as it is (R27, R110). -/
theorem step_of_halted {s : State} (h : s.halted = true) : step s = .next s := by
  rw [step, if_pos h]

/-! ## NOP and HALT -/

theorem exec_nop (s : State) : exec .nop s = .next s := rfl

theorem exec_halt (s : State) : exec .halt s = .next { s with halted := true } := rfl

theorem encodedAs_nop : EncodedAs 0x0 (fun _ => .nop) :=
  encodedAs_of_hasFieldsOf (fun _ => rfl) (fun _ => trivial)

theorem encodedAs_halt : EncodedAs 0xF (fun _ => .halt) :=
  encodedAs_of_hasFieldsOf (fun _ => rfl) (fun _ => trivial)

/-- Settles O32: the step around a NOP is the fetch and the count. -/
theorem nopResult : Obligations.NopResult := by
  unfold Obligations.NopResult
  refine ⟨encodedAs_nop, by decide, exec_nop, fun s u w hh hf hop => ?_⟩
  obtain ⟨hir, hpc, -⟩ := fetch_control hf
  exact ⟨hir, hpc, step_of_exec_eq_next hh hf (encodedAs_nop w hop) (exec_nop u) rfl⟩

/-- Settles O37: the step around a HALT is the fetch, the `halted` it sets and the count. -/
theorem haltResult : Obligations.HaltResult := by
  unfold Obligations.HaltResult
  refine ⟨encodedAs_halt, by decide, fun s => ⟨exec_halt s, step_of_halted rfl, rfl⟩, fun s u w hh hf hop => ?_⟩
  obtain ⟨-, hpc, -⟩ := fetch_control hf
  exact ⟨hpc, step_of_exec_eq_next hh hf (encodedAs_halt w hop) (exec_halt u) rfl⟩

/-! ## Branches -/

@[simp] theorem branchIf_false (imm12 : Int) (s : State) : branchIf false imm12 s = s := rfl

/-- Taken or not, a branch changes nothing but `pc` (R161). -/
theorem branchIf_restore_pc (cond : Bool) (imm12 : Int) (s : State) :
    { branchIf cond imm12 s with pc := s.pc } = s := by
  cases cond with
  | true => rfl
  | false => rfl

theorem exec_branch (imm12 : Int) (s : State) : exec (.branch imm12) s = .next (branchIf true imm12 s) := rfl

theorem exec_beq (imm12 : Int) (s : State) : exec (.beq imm12) s = .next (branchIf s.flags.zero imm12 s) := rfl

theorem exec_bne (imm12 : Int) (s : State) : exec (.bne imm12) s = .next (branchIf (!s.flags.zero) imm12 s) := rfl

theorem exec_blt (imm12 : Int) (s : State) : exec (.blt imm12) s = .next (branchIf s.flags.negative imm12 s) := rfl

/-- Settles O38: a conditional branch whose condition is false leaves the state as NOP does, and one whose condition is
true is `branchIf true`, which is BRANCH. -/
theorem branchesChangeOnlyPc : Obligations.BranchesChangeOnlyPc := by
  unfold Obligations.BranchesChangeOnlyPc
  refine ⟨?_, fun imm s hz => ?_, fun imm s hz => ?_, fun imm s hn => ?_, fun imm s hz => ?_, fun imm s hz => ?_,
    fun imm s hn => ?_⟩
  · rintro imm s t (h | h | h | h) <;> cases h <;> exact branchIf_restore_pc _ imm s
  · rw [exec_beq, hz, branchIf_false, exec_nop]
  · rw [exec_bne, hz, Bool.not_true, branchIf_false, exec_nop]
  · rw [exec_blt, hn, branchIf_false, exec_nop]
  · rw [exec_beq, hz, exec_branch]
  · rw [exec_bne, hz, Bool.not_false, exec_branch]
  · rw [exec_blt, hn, exec_branch]

end Sys2Proof.Machine
end

section
/-!
PROOFS. What a step can do, over all instructions: the invariant (O49), the end of a run (O45), the bytes behind the
devices (O31), the writers of the flags (O17) and of the registers (O18), the frame of LOAD and STORE (O27), the cycle
counter (O48), and the growth of the reports and the output (O52).

Every one of them is a case split on `exec_effect`, which says once what an instruction that completes can have done;
the fetch around it is `fetch_changes`.
-/

namespace Sys2Proof.Machine

/-! ## The frame of the bus -/

/-- A word read changes nothing of the core but what it consumes, draws and reports (R44, R58). -/
theorem memRead_frame {a v : Word} {s t : State} (h : memRead a s = some (v, t)) :
    t.flags = s.flags ∧ t.pc = s.pc ∧ SameControl s t ∧ t.mem = s.mem ∧ t.timerEnabled = s.timerEnabled ∧
      t.timerReg = s.timerReg ∧ t.cout = s.cout := by
  rw [memRead_changes h]
  exact ⟨rfl, rfl, ⟨rfl, rfl, rfl, rfl, rfl⟩, rfl, rfl, rfl, rfl⟩

/-- A word write changes nothing of the core, no register, and neither the console input nor the draws (R45, R58). -/
theorem memWrite_frame (a v : Word) (s : State) :
    (memWrite a v s).flags = s.flags ∧ (memWrite a v s).pc = s.pc ∧ SameControl s (memWrite a v s) ∧
      (memWrite a v s).cin = s.cin ∧ (memWrite a v s).draws = s.draws := by
  rw [memWrite_changes]
  exact ⟨rfl, rfl, ⟨rfl, rfl, rfl, rfl, rfl⟩, rfl, rfl⟩

/-- A word read reports nothing but the bounds violation, which answers 0 (R47). -/
theorem memRead_diag {a v : Word} {s t : State} (h : memRead a s = some (v, t)) :
    t.diag = s.diag ∨ a = 0xFFFF ∧ v = 0 ∧ t.diag = s.diag ++ [.boundsViolation .read 0xFFFF] := by
  rcases memRead_cases h with ⟨rfl, hv, rfl⟩ | ⟨-, -, rfl⟩ | ⟨-, _, _, -, -, rfl⟩ | ⟨-, -, -, -, rfl⟩ | ⟨-, -, rfl⟩ |
    ⟨-, -, -, -, rfl⟩
  · exact .inr ⟨rfl, hv, rfl⟩
  all_goals exact .inl rfl

/-- A word write reports nothing but the bounds violation (R47). -/
theorem memWrite_diag (a v : Word) (s : State) :
    (memWrite a v s).diag = s.diag ∨
      a = 0xFFFF ∧ (memWrite a v s).diag = s.diag ++ [.boundsViolation .write 0xFFFF] := by
  rcases memWrite_cases a v s with ⟨rfl, h⟩ | ⟨-, h⟩ | ⟨-, h⟩ | ⟨-, h⟩ | ⟨-, h⟩ | ⟨-, -, -, -, h⟩ <;> rw [h]
  · exact .inr ⟨rfl, rfl⟩
  all_goals exact .inl rfl

/-- A word write prints at most one character (R49). -/
theorem memWrite_cout (a v : Word) (s : State) :
    (memWrite a v s).cout = s.cout ∨ (memWrite a v s).cout = s.cout ++ [loByte v] := by
  rcases memWrite_cases a v s with ⟨-, h⟩ | ⟨-, h⟩ | ⟨-, h⟩ | ⟨-, h⟩ | ⟨-, h⟩ | ⟨-, -, -, -, h⟩ <;> rw [h]
  case inr.inr.inl => exact .inr rfl
  all_goals exact .inl rfl

/-- A word write changes memory at plain addresses only (R45, R48). -/
theorem memWrite_mem (a v : Word) (s : State) :
    (memWrite a v s).mem = s.mem ∨ isPlain a = true ∧ (memWrite a v s).mem = s.mem.storeWord a v := by
  rcases memWrite_cases a v s with ⟨-, h⟩ | ⟨hp, h⟩ | ⟨-, h⟩ | ⟨-, h⟩ | ⟨-, h⟩ | ⟨-, -, -, -, h⟩ <;> rw [h]
  case inr.inl => exact .inr ⟨hp, rfl⟩
  all_goals exact .inl rfl

/-! ## What an instruction that completes has done -/

/-- The flags `g` differ from `f` only in what the instruction `i` writes (R22 to R24, R26). -/
def FlagsWrittenBy (i : Instr) (f g : Flags) : Prop :=
  (i.setsZN = false → g.zero = f.zero ∧ g.negative = f.negative) ∧ (i.setsCarry = false → g.carry = f.carry) ∧
    g.overflow = f.overflow

theorem flagsWrittenBy_refl (i : Instr) (f : Flags) : FlagsWrittenBy i f f :=
  ⟨fun _ => ⟨rfl, rfl⟩, fun _ => rfl, rfl⟩

/-- The five kinds of effect an instruction can have: a result with its flags, a new `pc` (or the old one), a word read
into a register, a word write, the halt. -/
inductive Effect (s : State) : Instr → State → Prop where
  | compute {i : Instr} (rd : Nat) (r : Word) (f : Flags) (hdest : i.dest = some rd)
      (hflags : FlagsWrittenBy i s.flags f) : Effect s i ((s.writeReg rd r).setFlags f)
  | jump {i : Instr} (target : Word) (hdest : i.dest = none) : Effect s i (s.setPc target)
  | load (rd rs1 : Nat) (off : Int) (v : Word) (u : State) (hread : memRead (effAddr s rs1 off) s = some (v, u)) :
      Effect s (.load rd rs1 off) (u.writeReg rd v)
  | store (rd rs1 : Nat) (off : Int) :
      Effect s (.store rd rs1 off) (memWrite (effAddr s rs1 off) (s.readReg rd) s)
  | halt : Effect s .halt s.halt

theorem branchIf_eq_setPc (cond : Bool) (imm12 : Int) (s : State) :
    ∃ target, branchIf cond imm12 s = s.setPc target := by
  cases cond with
  | true => exact ⟨_, rfl⟩
  | false => exact ⟨s.pc, rfl⟩

/-- Said once for every instruction: what it has done when it completes. -/
theorem exec_effect {i : Instr} {s t : State} (h : exec i s = .next t) : Effect s i t := by
  cases i with
  | nop => cases h; exact .jump s.pc rfl
  | add rd rs1 rs2 => cases h; exact .compute rd _ _ rfl ⟨nofun, nofun, rfl⟩
  | addi rd | sub rd | subi rd | and rd | or rd | xor rd =>
    cases h; exact .compute rd _ _ rfl ⟨nofun, fun _ => rfl, rfl⟩
  | loadi rd => cases h; exact .compute rd _ s.flags rfl (flagsWrittenBy_refl _ _)
  | load rd rs1 off =>
    obtain ⟨v, u, hread, rfl⟩ := exec_load_eq_next h
    exact .load rd rs1 off v u hread
  | store rd rs1 off => cases h; exact .store rd rs1 off
  | branch imm12 | beq imm12 | bne imm12 | blt imm12 =>
    cases h
    obtain ⟨target, htarget⟩ := branchIf_eq_setPc _ imm12 s
    rw [htarget]
    exact .jump target rfl
  | halt => cases h; exact .halt

/-! ## Flags and registers -/

/-- Settles O17: a result is written with the flags its instruction may write, and no other effect touches a flag. -/
theorem flagsHaveTheirWriters : Obligations.FlagsHaveTheirWriters := by
  unfold Obligations.FlagsHaveTheirWriters
  intro i s t h
  change FlagsWrittenBy i s.flags t.flags
  cases exec_effect h with
  | compute _ _ _ _ hflags => exact hflags
  | jump | halt => exact flagsWrittenBy_refl _ _
  | load rd _ _ v u hread =>
    obtain ⟨hflags, -⟩ := memRead_frame hread
    rw [State.writeReg_flags, hflags]
    exact flagsWrittenBy_refl _ _
  | store rd rs1 off =>
    obtain ⟨hflags, -⟩ := memWrite_frame (effAddr s rs1 off) (s.readReg rd) s
    rw [hflags]
    exact flagsWrittenBy_refl _ _

/-- Settles O18: only a result and a word read write a register, and both write the destination. -/
theorem onlyTheDestinationChanges : Obligations.OnlyTheDestinationChanges := by
  unfold Obligations.OnlyTheDestinationChanges
  intro i s t k h hk
  cases exec_effect h with
  | compute rd _ _ hdest =>
    have hne : k ≠ rd := by rintro rfl; exact hk hdest
    simp [hne]
  | jump | halt => rfl
  | load rd => exact exec_load_readReg h (by rintro rfl; exact hk rfl)
  | store => exact exec_store_readReg h k

/-- Settles O27, from the two frames of the bus. -/
theorem loadAndStoreFrame : Obligations.LoadAndStoreFrame := by
  unfold Obligations.LoadAndStoreFrame
  constructor
  · intro rd rs1 off s t h
    obtain ⟨v, u, hread, rfl⟩ := exec_load_eq_next h
    obtain ⟨hflags, hpc, hcontrol, hmem, htimer⟩ := memRead_frame hread
    exact ⟨hflags, hpc, hcontrol, fun a => congrArg (·.readByte a) hmem, htimer⟩
  · intro rd rs1 off s t h
    have hregs : SameRegs s t := exec_store_readReg h
    cases h
    obtain ⟨hflags, hpc, hcontrol, hinput⟩ := memWrite_frame (effAddr s rs1 off) (s.readReg rd) s
    exact ⟨hflags, hpc, hcontrol, hregs, hinput⟩

/-! ## The invariant -/

theorem exec_inv {i : Instr} {s t : State} (h : exec i s = .next t) (hs : s.Inv) : t.Inv := by
  obtain ⟨hV, hsp, hmem⟩ := hs
  cases exec_effect h with
  | compute _ _ _ _ hflags =>
    obtain ⟨-, -, hoverflow⟩ := hflags
    exact ⟨hoverflow.trans hV, hsp, hmem⟩
  | jump | halt => exact ⟨hV, hsp, hmem⟩
  | load rd _ _ v u hread =>
    rw [memRead_changes hread]
    exact ⟨hV, hsp, hmem⟩
  | store =>
    refine ⟨?_, ?_, memWrite_wf _ _ hmem⟩
    all_goals rw [memWrite_changes]; assumption

/-- Settles O49: the fetch touches none of the three, and each effect of an instruction keeps them. -/
theorem stepKeepsTheInvariant : Obligations.StepKeepsTheInvariant := by
  unfold Obligations.StepKeepsTheInvariant
  intro s t hs h
  rcases step_cases h with ⟨-, rfl⟩ | ⟨-, w, u, i, v, hf, -, hx, rfl⟩
  · exact hs
  · have hu : u.Inv := by rw [fetch_changes hf]; exact hs
    have hv : v.Inv := exec_inv hx hu
    exact hv

/-! ## The cycle counter -/

theorem exec_cycle {i : Instr} {s t : State} (h : exec i s = .next t) : t.cycle = s.cycle := by
  cases exec_effect h with
  | compute | jump | halt => rfl
  | load rd _ _ v u hread => rw [memRead_changes hread]; rfl
  | store => rw [memWrite_changes]

/-- Settles O48: neither the fetch nor an instruction counts, and the step around them counts one. -/
theorem cycleCountsSteps : Obligations.CycleCountsSteps := by
  unfold Obligations.CycleCountsSteps
  intro s t h
  rcases step_cases h with ⟨hh, rfl⟩ | ⟨hh, w, u, i, v, hf, -, hx, rfl⟩
  · rw [if_pos hh]
  · obtain ⟨-, -, hcycle⟩ := fetch_control hf
    rw [hh, if_neg Bool.false_ne_true, State.tick_cycle, exec_cycle hx, hcycle]

/-! ## The end of a run -/

/-- The only instruction that sets `halted` is HALT (R27). -/
theorem exec_sets_halted {i : Instr} {s t : State} (h : exec i s = .next t) (hs : s.halted = false)
    (ht : t.halted = true) : i = .halt ∧ t = s.halt := by
  cases exec_effect h with
  | compute | jump => exact absurd (hs.symm.trans ht) Bool.false_ne_true
  | load rd _ _ v u hread =>
    obtain ⟨-, -, ⟨-, -, hhalted, -⟩, -⟩ := memRead_frame hread
    exact absurd (hs.symm.trans (hhalted.symm.trans ht)) Bool.false_ne_true
  | store rd rs1 off =>
    obtain ⟨-, -, ⟨-, -, hhalted, -⟩, -⟩ := memWrite_frame (effAddr s rs1 off) (s.readReg rd) s
    exact absurd (hs.symm.trans (hhalted.symm.trans ht)) Bool.false_ne_true
  | halt => exact ⟨rfl, rfl⟩

/-- A fetch reports nothing but the bounds violation, whose word is a NOP (R47, R65). -/
theorem fetch_diag {s u : State} {w : Word} (h : fetch s = some (w, u)) :
    u.diag = s.diag ∨ decodeWord w = .ok .nop ∧ u.diag = s.diag ++ [.boundsViolation .read 0xFFFF] := by
  obtain ⟨r, hread, rfl⟩ := fetch_eq_some h
  rcases memRead_diag hread with hdiag | ⟨-, rfl, hdiag⟩
  · exact .inl hdiag
  · exact .inr ⟨by decide, hdiag⟩

/-- Settles O45: the instruction was HALT, so the fetched word is no NOP and the fetch reported nothing; besides `ir`
and `pc` it then changed only what the statement leaves open. -/
theorem onlyHaltEndsTheRun : Obligations.OnlyHaltEndsTheRun := by
  unfold Obligations.OnlyHaltEndsTheRun
  intro s t hh h ht
  rcases step_cases h with ⟨hs, -⟩ | ⟨-, w, u, i, v, hf, hi, hx, rfl⟩
  · exact absurd (hh.symm.trans hs) Bool.false_ne_true
  · have hu : u.halted = false := by rw [fetch_changes hf]; exact hh
    obtain ⟨rfl, rfl⟩ := exec_sets_halted hx hu ht
    have hdiag : u.diag = s.diag := by
      rcases fetch_diag hf with hdiag | ⟨hnop, -⟩
      · exact hdiag
      · rw [hi] at hnop; cases hnop
    obtain ⟨hir, hpc, hcycle⟩ := fetch_control hf
    refine ⟨?_, hpc, congrArg (· + 1) hcycle, ?_, ?_, ?_, hdiag, ?_⟩
    · rw [← hi, ← hir]; rfl
    all_goals rw [fetch_changes hf]
    · exact fun _ => rfl
    · rfl
    · exact fun _ => rfl
    · rfl

/-! ## Reports and output -/

theorem exec_diag {i : Instr} {s t : State} (h : exec i s = .next t) :
    t.diag = s.diag ∨ ∃ k, t.diag = s.diag ++ [.boundsViolation k 0xFFFF] := by
  cases exec_effect h with
  | compute | jump | halt => exact .inl rfl
  | load rd _ _ v u hread => exact (memRead_diag hread).imp_right fun ⟨_, _, hdiag⟩ => ⟨_, hdiag⟩
  | store => exact (memWrite_diag _ _ s).imp_right fun ⟨_, hdiag⟩ => ⟨_, hdiag⟩

theorem exec_cout {i : Instr} {s t : State} (h : exec i s = .next t) :
    t.cout = s.cout ∨ ∃ b, t.cout = s.cout ++ [b] := by
  cases exec_effect h with
  | compute | jump | halt => exact .inl rfl
  | load rd _ _ v u hread =>
    obtain ⟨-, -, -, -, -, -, hcout⟩ := memRead_frame hread
    exact .inl hcout
  | store => exact (memWrite_cout _ _ s).imp_right fun hcout => ⟨_, hcout⟩

/-- Settles O52: an instruction appends at most one record and one character; the fetch prints nothing, and when it
reports, the instruction is a NOP. -/
theorem reportsAndOutputOnlyGrow : Obligations.ReportsAndOutputOnlyGrow := by
  unfold Obligations.ReportsAndOutputOnlyGrow
  intro s t h
  rcases step_cases h with ⟨-, rfl⟩ | ⟨-, w, u, i, v, hf, hi, hx, rfl⟩
  · exact ⟨.inl rfl, .inl rfl⟩
  · have hcout : u.cout = s.cout := by rw [fetch_changes hf]
    rw [State.tick_diag, State.tick_cout]
    refine ⟨?_, hcout ▸ exec_cout hx⟩
    rcases fetch_diag hf with hdiag | ⟨hnop, hdiag⟩
    · exact hdiag ▸ exec_diag hx
    · rw [hi] at hnop
      cases hnop
      cases hx
      exact .inr ⟨_, hdiag⟩

/-! ## The bytes behind the devices -/

/-- Memory changes only by a STORE to plain storage (R143). -/
theorem exec_mem {i : Instr} {s t : State} (h : exec i s = .next t) :
    t.mem = s.mem ∨ ∃ rd rs1 off, i = .store rd rs1 off ∧ isPlain (effAddr s rs1 off) = true ∧
      t.mem = s.mem.storeWord (effAddr s rs1 off) (s.readReg rd) := by
  cases exec_effect h with
  | compute | jump | halt => exact .inl rfl
  | load rd _ _ v u hread =>
    obtain ⟨-, -, -, hmem, -⟩ := memRead_frame hread
    exact .inl hmem
  | store rd rs1 off =>
    exact (memWrite_mem _ _ s).imp_right fun ⟨hplain, hmem⟩ => ⟨rd, rs1, off, rfl, hplain, hmem⟩

/-- A word written to plain storage reaches no byte behind the devices, but the first one from 0xEFFF (R48, R55). -/
theorem readByte_storeWord_mmio (m : Memory) {a v : Word} {b : Nat} (ha : isPlain a = true) (hb : 0xF000 ≤ b)
    (hb' : b ≤ 0xF0FF) (h : b = 0xF000 → a ≠ 0xEFFF) : (m.storeWord a v).readByte b = m.readByte b := by
  rw [isPlain_iff] at ha
  have hstraddle : b = 0xF000 → a.toNat ≠ 0xEFFF := fun e ha => h e (BitVec.eq_of_toNat_eq ha)
  exact m.readByte_storeWord_of_ne v (by omega) (by omega)

/-- Settles O31: the fetch keeps memory, and a STORE to plain storage that reaches a byte behind the devices is one at
0xEFFF, which reaches 0xF000. -/
theorem deviceBytesNeverChange : Obligations.DeviceBytesNeverChange := by
  unfold Obligations.DeviceBytesNeverChange
  intro s t h
  rcases step_cases h with ⟨-, rfl⟩ | ⟨-, w, u, i, v, hf, hi, hx, rfl⟩
  · exact ⟨fun _ _ _ => rfl, fun hne => absurd rfl hne⟩
  · have hu : u.mem = s.mem := by rw [fetch_changes hf]
    rw [State.tick_mem, ← hu]
    rcases exec_mem hx with hmem | ⟨rd, rs1, off, rfl, hplain, hmem⟩
    · rw [hmem]
      exact ⟨fun _ _ _ => rfl, fun hne => absurd rfl hne⟩
    · rw [hmem]
      refine ⟨fun a ha ha' => readByte_storeWord_mmio _ hplain (by omega) ha' (by omega), fun hne => ?_⟩
      refine ⟨w, u, rd, rs1, off, hf, hi, ?_⟩
      by_contra hstraddle
      exact hne (readByte_storeWord_mmio _ hplain le_rfl (by decide) fun _ => hstraddle)

end Sys2Proof.Machine
end

section
/-!
PROOFS. Noninterference (O53): what a program cannot read influences nothing it can.

The step is followed operation by operation: from two states that agree in what is visible, each operation answers two
states that again agree in it, having printed and reported the same. Such runs of operations compose.
-/

namespace Sys2Proof.Machine

/-! ## Runs that are alike -/

/-- From `s` and `t` two runs came to `s'` and `t'`, which a program cannot tell apart, and printed and reported the
same on the way. -/
def Alike (s t s' t' : State) : Prop := SameOutcome s t (.next s') (.next t')

/-- Two bus reads from `s` and from `t` both wait, or both answer the same word. -/
def AlikeRead (s t : State) (x y : Option (Word × State)) : Prop :=
  (x = none ∧ y = none) ∨ ∃ v s' t', x = some (v, s') ∧ y = some (v, t') ∧ Alike s t s' t'

/-- Two runs that neither print nor report are alike when a program cannot tell their ends apart. -/
theorem alike_of_silent {s t s' t' : State} (hvis : SameVisible s' t') (hcout : s'.cout = s.cout)
    (hcout' : t'.cout = t.cout) (hdiag : s'.diag = s.diag) (hdiag' : t'.diag = t.diag) : Alike s t s' t' :=
  ⟨hvis, ⟨[], by simp [hcout, hcout']⟩, ⟨[], by simp [hdiag, hdiag']⟩⟩

theorem Alike.sameVisible {s t s' t' : State} (h : Alike s t s' t') : SameVisible s' t' := by
  obtain ⟨hvis, -⟩ := h
  exact hvis

/-- What is printed and reported first and what is printed and reported then make up the whole. -/
theorem Alike.sameOutcome {s t s' t' : State} (h : Alike s t s' t') {o p : Host.Outcome State Fault Refusal}
    (h' : SameOutcome s' t' o p) : SameOutcome s t o p := by
  obtain ⟨-, ⟨out, hs, ht⟩, rep, hs', ht'⟩ := h
  cases o <;> cases p
  case next.next u v =>
    obtain ⟨hvis, ⟨out', hu, hv⟩, rep', hu', hv'⟩ := h'
    refine ⟨hvis, ⟨out ++ out', ?_, ?_⟩, rep ++ rep', ?_, ?_⟩
    · rw [hu, hs, List.append_assoc]
    · rw [hv, ht, List.append_assoc]
    · rw [hu', hs', List.append_assoc]
    · rw [hv', ht', List.append_assoc]
  all_goals exact h'

/-! ## The operations -/

section
variable {s t : State} (h : SameVisible s t)
include h

theorem SameVisible.alike_self : Alike s t s t := alike_of_silent h rfl rfl rfl rfl

theorem SameVisible.readReg (k : Nat) : s.readReg k = t.readReg k := by
  obtain ⟨hregs, -⟩ := h
  rw [State.readReg, hregs, State.readReg]

theorem SameVisible.effAddr (rs1 : Nat) (off : Int) : effAddr s rs1 off = effAddr t rs1 off := by
  rw [Machine.effAddr, h.readReg, Machine.effAddr]

theorem SameVisible.alike_report (r : Report) : Alike s t (s.report r) (t.report r) :=
  ⟨h, ⟨[], (List.append_nil _).symm, (List.append_nil _).symm⟩, ⟨[r], rfl, rfl⟩⟩

theorem SameVisible.alike_emit (b : Byte) : Alike s t (s.emit b) (t.emit b) :=
  ⟨h, ⟨[b], rfl, rfl⟩, ⟨[], (List.append_nil _).symm, (List.append_nil _).symm⟩⟩

theorem SameVisible.alike_writeReg (rd : Nat) (v : Word) : Alike s t (s.writeReg rd v) (t.writeReg rd v) := by
  obtain ⟨hregs, hrest⟩ := h
  exact alike_of_silent ⟨congrArg (·.setIfInBounds rd v) hregs, hrest⟩ rfl rfl rfl rfl

theorem SameVisible.alike_writeResult (rd : Nat) (r : Word) : Alike s t (writeResult rd r s) (writeResult rd r t) := by
  obtain ⟨hregs, hpc, -, -, hrest⟩ := h
  exact alike_of_silent ⟨congrArg (·.setIfInBounds rd r) hregs, hpc, rfl, rfl, hrest⟩ rfl rfl rfl rfl

theorem SameVisible.alike_setPc (target : Word) : Alike s t (s.setPc target) (t.setPc target) := by
  obtain ⟨hregs, -, hrest⟩ := h
  exact alike_of_silent ⟨hregs, rfl, hrest⟩ rfl rfl rfl rfl

theorem SameVisible.alike_halt : Alike s t s.halt t.halt := by
  obtain ⟨hregs, hpc, hzero, hnegative, -, hrest⟩ := h
  exact alike_of_silent ⟨hregs, hpc, hzero, hnegative, rfl, hrest⟩ rfl rfl rfl rfl

theorem SameVisible.alike_storeWord (a v : Word) :
    Alike s t (s.setMem (s.mem.storeWord a v)) (t.setMem (t.mem.storeWord a v)) := by
  obtain ⟨hregs, hpc, hzero, hnegative, hhalted, hmem, hrest⟩ := h
  exact alike_of_silent ⟨hregs, hpc, hzero, hnegative, hhalted, congrArg (·.storeWord a v) hmem, hrest⟩ rfl rfl rfl rfl

theorem SameVisible.alike_setCin (c : ConsoleInput) : Alike s t (s.setCin c) (t.setCin c) := by
  obtain ⟨hregs, hpc, hzero, hnegative, hhalted, hmem, -, hdraws⟩ := h
  exact alike_of_silent ⟨hregs, hpc, hzero, hnegative, hhalted, hmem, rfl, hdraws⟩ rfl rfl rfl rfl

theorem SameVisible.alike_countDraw : Alike s t s.countDraw t.countDraw := by
  obtain ⟨hregs, hpc, hzero, hnegative, hhalted, hmem, hcin, hdraws⟩ := h
  exact alike_of_silent ⟨hregs, hpc, hzero, hnegative, hhalted, hmem, hcin, congrArg (· + 1) hdraws⟩ rfl rfl rfl rfl

/-! ## The bus -/

theorem SameVisible.consoleNext : AlikeRead s t (consoleNext s) (consoleNext t) := by
  obtain ⟨-, -, -, -, -, -, hcin, -⟩ := id h
  unfold Machine.consoleNext
  rw [hcin]
  cases t.cin.pending with
  | cons c rest => exact .inr ⟨_, _, _, rfl, rfl, h.alike_setCin _⟩
  | nil =>
    cases t.cin.ended with
    | true => exact .inr ⟨_, _, _, rfl, rfl, h.alike_self⟩
    | false => exact .inl ⟨rfl, rfl⟩

theorem SameVisible.deviceRead (a : Word) : AlikeRead s t (deviceRead a s) (deviceRead a t) := by
  obtain ⟨-, -, -, -, -, -, -, hdraws⟩ := id h
  unfold Machine.deviceRead
  split
  · exact h.consoleNext
  · split
    · exact .inr ⟨_, _, _, rfl, by rw [drawTimer, ← hdraws], h.alike_countDraw⟩
    · exact .inr ⟨_, _, _, rfl, rfl, h.alike_self⟩

theorem SameVisible.memRead (a : Word) : AlikeRead s t (memRead a s) (memRead a t) := by
  obtain ⟨-, -, -, -, -, hmem, -⟩ := id h
  rcases address_cases a with rfl | hp | hm
  · exact .inr ⟨_, _, _, memRead_lastAddr s, memRead_lastAddr t, h.alike_report _⟩
  · exact .inr ⟨_, _, _, memRead_of_isPlain s hp, by rw [memRead_of_isPlain t hp, hmem], h.alike_self⟩
  · rw [memRead_of_mmio s hm, memRead_of_mmio t hm]
    exact h.deviceRead a

theorem SameVisible.deviceWrite (a v : Word) : Alike s t (deviceWrite a v s) (deviceWrite a v t) := by
  unfold Machine.deviceWrite
  split
  · exact h.alike_emit _
  · split
    · exact alike_of_silent h rfl rfl rfl rfl
    · split
      · exact alike_of_silent h rfl rfl rfl rfl
      · exact h.alike_self

theorem SameVisible.memWrite (a v : Word) : Alike s t (memWrite a v s) (memWrite a v t) := by
  rcases address_cases a with rfl | hp | hm
  · rw [memWrite_lastAddr, memWrite_lastAddr]
    exact h.alike_report _
  · rw [memWrite_of_isPlain v s hp, memWrite_of_isPlain v t hp]
    exact h.alike_storeWord a v
  · rw [memWrite_of_mmio v s hm, memWrite_of_mmio v t hm]
    exact h.deviceWrite a v

/-! ## Instructions and the step -/

theorem SameVisible.branchIf (cond : Bool) (imm12 : Int) :
    Alike s t (branchIf cond imm12 s) (branchIf cond imm12 t) := by
  obtain ⟨-, hpc, -⟩ := id h
  cases cond with
  | true =>
    rw [Machine.branchIf, if_pos rfl, branchTarget, hpc]
    exact h.alike_setPc _
  | false => exact h.alike_self

theorem SameVisible.execLoad (rd rs1 : Nat) (off : Int) :
    SameOutcome s t (execLoad rd rs1 off s) (execLoad rd rs1 off t) := by
  unfold Machine.execLoad
  rw [h.effAddr]
  rcases h.memRead (Machine.effAddr t rs1 off) with ⟨hs, ht⟩ | ⟨v, s', t', hs, ht, halike⟩ <;> rw [hs, ht]
  · rfl
  · exact halike.sameOutcome (halike.sameVisible.alike_writeReg rd v)

/-- No instruction reads what a program cannot see (R19, R20, R23, R24, R28, R29, R31, R32). -/
theorem SameVisible.exec (i : Instr) : SameOutcome s t (exec i s) (exec i t) := by
  obtain ⟨-, -, hzero, hnegative, -⟩ := id h
  cases i with
  | nop => exact h.alike_self
  | add rd | sub rd | and rd | or rd | xor rd | addi rd | subi rd =>
    -- The results are equal, and the Carry that ADD writes beside its own is not visible.
    simp only [Machine.exec, execAdd, execSub, execAnd, execOr, execXor, execAddi, execSubi, h.readReg]
    exact h.alike_writeResult rd _
  | loadi rd imm9 => exact h.alike_writeReg rd _
  | load rd rs1 off => exact h.execLoad rd rs1 off
  | store rd rs1 off =>
    rw [Machine.exec, Machine.exec, execStore, execStore, h.effAddr, h.readReg]
    exact h.memWrite _ _
  | branch imm12 => exact h.branchIf _ imm12
  | beq imm12 => rw [exec_beq, exec_beq, hzero]; exact h.branchIf _ imm12
  | bne imm12 => rw [exec_bne, exec_bne, hzero]; exact h.branchIf _ imm12
  | blt imm12 => rw [exec_blt, exec_blt, hnegative]; exact h.branchIf _ imm12
  | halt => exact h.alike_halt

theorem SameVisible.fetch : AlikeRead s t (fetch s) (fetch t) := by
  obtain ⟨-, hpc, -⟩ := id h
  unfold Machine.fetch
  rw [hpc]
  rcases h.memRead t.pc with ⟨hs, ht⟩ | ⟨w, s', t', hs, ht, halike⟩ <;> rw [hs, ht]
  · exact .inl ⟨rfl, rfl⟩
  · exact .inr ⟨_, _, _, rfl, rfl, halike.sameOutcome (halike.sameVisible.alike_setPc _)⟩

end

/-- Counting the cycle does not show (R28). -/
theorem SameOutcome.countCycle {s t : State} {o p : Host.Outcome State Fault Refusal} (h : SameOutcome s t o p) :
    SameOutcome s t (countCycle o) (countCycle p) := by
  cases o <;> cases p <;> exact h

/-- A running core whose fetch waits holds (R58, R117). -/
theorem step_of_fetch_none {s : State} (hh : s.halted = false) (hf : fetch s = none) :
    step s = .fault .consoleInputWait := by
  simp [step, fetchExecute, hh, hf]

/-- Settles O53: the fetches are alike, and from what they answer the same instruction runs alike. -/
theorem unseenStateNeverMatters : Obligations.UnseenStateNeverMatters := by
  unfold Obligations.UnseenStateNeverMatters
  intro s t h
  obtain ⟨-, -, -, -, hhalted, -⟩ := id h
  cases hs : s.halted with
  | true =>
    rw [step_of_halted hs, step_of_halted (hhalted ▸ hs)]
    exact h.alike_self
  | false =>
    rcases h.fetch with ⟨hfs, hft⟩ | ⟨w, s', t', hfs, hft, halike⟩
    · rw [step_of_fetch_none hs hfs, step_of_fetch_none (hhalted ▸ hs) hft]
      rfl
    · obtain ⟨i, hi, -⟩ := execute_decodeFields s.pc w s
      rw [step_of_fetch hs hfs hi, step_of_fetch (hhalted ▸ hs) hft hi]
      exact (halike.sameOutcome (halike.sameVisible.exec i)).countCycle

end Sys2Proof.Machine
end

section
/-!
PROOFS. The rest of spec/30_encoding.md: every word is an instruction (O2), the bits no format uses are ignored (O3),
words written out in the spec (O4), and the encoders' formulas (O6).
-/

namespace Sys2Proof

open Machine

/-! ## Every word -/

/-- Every word decodes, to an instruction of its opcode whose operands fit (R80). -/
theorem decodeWord_total (w : Word) :
    ∃ i, decodeWord w = .ok i ∧ i.opcode = unsignedField w 12 4 ∧ i.wellFormed = true := by
  obtain ⟨i, hi, hwf, -⟩ := decodeEncodeRoundTrip.2 w
  exact ⟨i, hi, ((decodeWord_eq_ok_iff w i).1 hi).1.symm, hwf⟩

/-- Two bytes at the head of a list are the word they make (R66, R70). -/
theorem decode_cons_cons {lo hi : Byte} {i : Instr} (h : decodeWord (wordOfBytes lo hi) = .ok i) (rest : List Byte) :
    decode (lo :: hi :: rest) = .ok (i, rest) := by
  rw [decode, h]

/-- Settles O2, from the totality of the decoder on words. -/
theorem everyWordIsAnInstruction : Obligations.EveryWordIsAnInstruction := by
  unfold Obligations.EveryWordIsAnInstruction
  refine ⟨decodeWord_total, fun lo hi rest => ?_, fun bytes hlen => ?_⟩
  · obtain ⟨i, hword, -⟩ := decodeWord_total (wordOfBytes lo hi)
    exact ⟨i, decode_cons_cons hword rest, hword⟩
  · match bytes, hlen with
    | [], _ => rfl
    | [_], _ => rfl

/-! ## Ignored bits -/

/-- Every format uses the opcode (R71, R79). -/
theorem usedBits_opcode (op : Nat) : (usedBits op).extractLsb' 12 4 = BitVec.allOnes 4 := by
  unfold usedBits
  split <;> rfl

theorem opcode_and_usedBits (w : Word) (op : Nat) : unsignedField (w &&& usedBits op) 12 4 = unsignedField w 12 4 := by
  rw [unsignedField, BitVec.extractLsb'_and, usedBits_opcode, BitVec.and_allOnes, unsignedField]

/-- Settles O3: such words have the same opcode, so each, with its ignored bits cleared, is the encoding of the
instruction it decodes to, and the two encodings are equal. -/
theorem ignoredBitsAreIgnored : Obligations.IgnoredBitsAreIgnored := by
  unfold Obligations.IgnoredBitsAreIgnored
  intro w v h
  have hop : unsignedField v 12 4 = unsignedField w 12 4 := by
    rw [← opcode_and_usedBits v (unsignedField w 12 4), ← h, opcode_and_usedBits]
  obtain ⟨i, hi, -, hwfi⟩ := decodeWord_total w
  obtain ⟨j, hj, -, hwfj⟩ := decodeWord_total v
  have henc : encode i = encode j := by
    rw [encode_of_decodeWord hi, encode_of_decodeWord hj, h, hop]
  calc decodeWord w
    _ = decodeWord (encode i) := hi.trans (decodeWord_encode hwfi).symm
    _ = decodeWord v := by rw [henc, decodeWord_encode hwfj, hj]

/-- Settles O4, each word by its own decoding. -/
theorem sampleWordsDecode : Obligations.SampleWordsDecode := by
  unfold Obligations.SampleWordsDecode
  decide

/-! ## The encoders' formulas -/

/-- The or of a number whose low `k` bits are 0 and a number of `k` bits is their sum. -/
theorem or_eq_add_of_lt {a b : Nat} (k : Nat) (ha : a % 2 ^ k = 0) (hb : b < 2 ^ k) : a ||| b = a + b := by
  obtain ⟨c, rfl⟩ := Nat.dvd_of_mod_eq_zero ha
  exact (Nat.two_pow_add_eq_or_of_lt hb c).symm

/-- Settles O6: the fields do not overlap, so the ors of the formulas are sums, and the encoders' words denote those
sums. -/
theorem encoderFollowsTheFormulas : Obligations.EncoderFollowsTheFormulas := by
  unfold Obligations.EncoderFollowsTheFormulas
  intro op rd rs1 rs2 imm hop hrd hrs1 hrs2
  simp only [Nat.shiftLeft_eq, encodeR_toNat, encodeI_toNat, encodeM_toNat, encodeB_toNat, encodeN_toNat]
  refine ⟨?_, ?_, ?_, ?_, ?_⟩
  · rw [or_eq_add_of_lt (b := rd * 2 ^ 9) 12, or_eq_add_of_lt (b := rs1 * 2 ^ 6) 9, or_eq_add_of_lt 6] <;> omega
  · rw [or_eq_add_of_lt (b := rd * 2 ^ 9) 12, or_eq_add_of_lt 9] <;> omega
  · rw [or_eq_add_of_lt (b := rd * 2 ^ 9) 12, or_eq_add_of_lt (b := rs1 * 2 ^ 6) 9, or_eq_add_of_lt 6] <;> omega
  · rw [or_eq_add_of_lt 12] <;> omega
  · omega

end Sys2Proof
end

section
/-!
PROOFS. The rest of spec/41_alu.md: ADDI (O9), SUB (O10), SUBI (O11), and ADDI as SUBI of the negation (O16).

The effect is that of every computing instruction; the result of each denotes an integer sum or difference modulo 2^16.
-/

namespace Sys2Proof.Machine

/-- The difference of two words denotes the exact difference modulo 2^16 (R122). -/
theorem toNat_sub_eq_emod (a b : Word) : ((a - b).toNat : Int) = (a.toNat - b.toNat) % 2 ^ 16 := by
  rw [BitVec.toNat_sub]
  omega

/-- Subtracting an immediate is adding its negation (R128). -/
theorem sub_immWord (b : Word) (v : Int) : b - immWord v = b + immWord (-v) := by
  rw [immWord, immWord, BitVec.ofInt_neg, BitVec.sub_eq_add_neg]

/-- Settles O9: `rd` plus the word of the immediate denotes the exact sum modulo 2^16. -/
theorem addiResult : Obligations.AddiResult := by
  unfold Obligations.AddiResult
  refine ⟨encodedAs_of_hasFieldsOf (fun _ => rfl) (fun _ => ⟨rfl, rfl⟩), fun rd imm9 s => ?_⟩
  rw [← toNat_add_immWord, Int.toNat_natCast]
  exact completesAlu_of_exec_writeResult rfl

/-- Settles O10: the difference of two words denotes that of their numbers modulo 2^16. -/
theorem subResult : Obligations.SubResult := by
  unfold Obligations.SubResult
  refine ⟨encodedAs_of_hasFieldsOf (fun _ => rfl) (fun _ => ⟨rfl, rfl, rfl⟩), fun rd rs1 rs2 s => ?_⟩
  rw [← toNat_sub_eq_emod, Int.toNat_natCast]
  exact completesAlu_of_exec_writeResult rfl

/-- Settles O16: both write the same sum. -/
theorem addiIsSubiOfNegation : Obligations.AddiIsSubiOfNegation := by
  unfold Obligations.AddiIsSubiOfNegation
  intro rd k s
  rw [exec, exec, execAddi, execSubi, sub_immWord, neg_neg]

/-- Settles O11: SUBI is ADDI of the negated immediate. -/
theorem subiResult : Obligations.SubiResult := by
  unfold Obligations.SubiResult
  refine ⟨encodedAs_of_hasFieldsOf (fun _ => rfl) (fun _ => ⟨rfl, rfl⟩), fun rd imm9 s => ?_⟩
  have hexec : exec (.subi rd imm9) s = exec (.addi rd (-imm9)) s := by
    rw [addiIsSubiOfNegation, neg_neg]
  rw [CompletesAlu, hexec]
  exact addiResult.2 rd (-imm9) s

end Sys2Proof.Machine
end

section
/-!
PROOFS. The rest of spec/42_load_store.md and spec/20_memory.md: LOAD (O20, O22, O23), STORE (O24, O25, O26), the
bounds violation (O21), and what a read gets of the words written before (O28, O29, O30).

What LOAD and STORE do at an address is what the bus does there; each address of the device region has its own rule.
-/

namespace Sys2Proof.Machine

/-! ## The two bytes of a word as numbers -/

theorem toNat_wordOfBytes (lo hi : Byte) : (wordOfBytes lo hi).toNat = 256 * hi.toNat + lo.toNat := by
  rw [wordOfBytes, BitVec.toNat_append, ← Nat.shiftLeft_add_eq_or_of_lt lo.isLt, Nat.shiftLeft_eq, Nat.mul_comm]

theorem toNat_loByte (w : Word) : (loByte w).toNat = w.toNat % 256 := by
  simp [loByte, BitVec.extractLsb'_toNat]

theorem toNat_hiByte (w : Word) : (hiByte w).toNat = w.toNat / 256 := by
  have := w.isLt
  rw [hiByte, BitVec.extractLsb'_toNat, Nat.shiftRight_eq_div_pow]
  omega

/-! ## The device registers -/

/-- A read of 0xF001 with a character pending consumes and answers it (R51). -/
theorem memRead_consoleIn_pending {s : State} {c : Byte} {rest : List Byte} (h : s.cin.pending = c :: rest) :
    memRead Config.consoleIn s = some (c.setWidth 16, s.setCin { s.cin with pending := rest }) := by
  rw [memRead_of_mmio s rfl, deviceRead, if_pos rfl, consoleNext, h]

/-- A read of 0xF001 at the end of input answers 0 (R51, D11). -/
theorem memRead_consoleIn_ended {s : State} (h : s.cin.pending = []) (h' : s.cin.ended = true) :
    memRead Config.consoleIn s = some (0, s) := by
  rw [memRead_of_mmio s rfl, deviceRead, if_pos rfl, consoleNext, h, h']
  rfl

/-- A read of 0xF003 is the next free draw (R53). -/
theorem memRead_timerValue (s : State) : memRead Config.timerValue s = some (Config.timerDraw s.draws, s.countDraw) :=
  memRead_of_mmio s rfl

/-- A read of every other device address answers 0 (R50, R52, R54). -/
theorem memRead_other_device {a : Word} (s : State) (ha : 0xF000 ≤ a.toNat) (ha' : a.toNat ≤ 0xF0FF)
    (hin : a ≠ Config.consoleIn) (htimer : a ≠ Config.timerValue) : memRead a s = some (0, s) := by
  rw [memRead_of_mmio s ((regionOf_eq_mmio a).2 ⟨ha, ha'⟩), deviceRead, if_neg hin, if_neg htimer]

/-- A write of 0xF001, or of an address from 0xF004 on, has no effect (R51, R54). -/
theorem memWrite_other_device {a : Word} (v : Word) (s : State)
    (ha : a = 0xF001 ∨ 0xF004 ≤ a.toNat ∧ a.toNat ≤ 0xF0FF) : memWrite a v s = s := by
  have hrange : 0xF000 ≤ a.toNat ∧ a.toNat ≤ 0xF0FF := by
    rcases ha with rfl | ha
    · decide
    · omega
  have hne : a ≠ Config.consoleOut ∧ a ≠ Config.timerControl ∧ a ≠ Config.timerValue := by
    refine ⟨?_, ?_, ?_⟩ <;> rintro rfl <;> revert ha <;> decide
  obtain ⟨hout, hcontrol, htimer⟩ := hne
  rw [memWrite_of_mmio v s ((regionOf_eq_mmio a).2 hrange), deviceWrite, if_neg hout, if_neg hcontrol, if_neg htimer]

/-! ## LOAD and STORE through the bus -/

/-- A LOAD whose word read answers writes that word to `rd` (R140). -/
theorem exec_load_of_memRead {rs1 : Nat} {off : Int} {s u : State} {a v : Word} (ha : effAddr s rs1 off = a)
    (h : memRead a s = some (v, u)) (rd : Nat) : exec (.load rd rs1 off) s = .next (u.writeReg rd v) := by
  rw [exec, execLoad, ha, h]

/-- A STORE is the word write of the register (R141). -/
theorem exec_store {rs1 : Nat} {off : Int} {s : State} {a : Word} (ha : effAddr s rs1 off = a) (rd : Nat) :
    exec (.store rd rs1 off) s = .next (memWrite a (s.readReg rd) s) := by
  rw [exec, execStore, ha]

/-- Settles O22, one rule of the device registers per clause. -/
theorem loadFromDevices : Obligations.LoadFromDevices := by
  unfold Obligations.LoadFromDevices
  refine ⟨fun rd rs1 off s c rest ha hc => ?_, fun rd rs1 off s ha hc he => ?_, fun rd rs1 off s ha => ?_,
    fun rd rs1 off s hlo hhi hin htimer => ?_⟩
  · exact exec_load_of_memRead ha (memRead_consoleIn_pending hc) rd
  · exact exec_load_of_memRead ha (memRead_consoleIn_ended hc he) rd
  · exact exec_load_of_memRead ha (memRead_timerValue s) rd
  · exact exec_load_of_memRead rfl (memRead_other_device s hlo hhi hin htimer) rd

/-- Settles O23, from the one way an instruction fails to complete. -/
theorem loadWaitsForInput : Obligations.LoadWaitsForInput := by
  unfold Obligations.LoadWaitsForInput
  intro rd rs1 off s ha hblocked
  exact exec_eq_fault.2 ⟨rd, rs1, off, rfl, ha, hblocked⟩

/-- Settles O25: the write is a device write of 0xF000. -/
theorem storeToConsole : Obligations.StoreToConsole := by
  unfold Obligations.StoreToConsole
  intro rd rs1 off s ha
  rw [exec_store ha]
  exact congrArg Host.Outcome.next (memWrite_of_mmio _ s rfl)

/-- Settles O26, one rule of the device registers per clause. -/
theorem storeToOtherDevices : Obligations.StoreToOtherDevices := by
  unfold Obligations.StoreToOtherDevices
  refine ⟨fun rd rs1 off s ha => ?_, fun rd rs1 off s ha => ?_, fun rd rs1 off s ha => ?_⟩
  · rw [exec_store ha]
    exact congrArg Host.Outcome.next (memWrite_of_mmio _ s rfl)
  · rw [exec_store ha]
    exact congrArg Host.Outcome.next (memWrite_of_mmio _ s rfl)
  · rw [exec_store rfl, memWrite_other_device _ s ha]

/-- Settles O21: at 0xFFFF the bus reports and does nothing else, and elsewhere it reports nothing. -/
theorem boundsViolationContinues : Obligations.BoundsViolationContinues := by
  unfold Obligations.BoundsViolationContinues
  refine ⟨memRead_lastAddr, fun s v => memWrite_lastAddr v s, fun a v s t ha h => ?_, fun a v s ha => ?_,
    fun rd rs1 off s ha => exec_load_of_memRead ha (memRead_lastAddr s) rd, fun rd rs1 off s ha => ?_⟩
  · exact (memRead_diag h).resolve_right fun ⟨ha', _⟩ => ha ha'
  · exact (memWrite_diag a v s).resolve_right fun ⟨ha', _⟩ => ha ha'
  · rw [exec_store ha]
    exact congrArg Host.Outcome.next (memWrite_lastAddr _ s)

/-! ## Plain storage -/

/-- Settles O20: the word read of plain storage has no effect, and its two bytes make the number. -/
theorem loadFromStorage : Obligations.LoadFromStorage := by
  unfold Obligations.LoadFromStorage
  refine ⟨encodedAs_of_hasFieldsOf (fun _ => rfl) (fun _ => ⟨rfl, rfl, rfl⟩), fun rd rs1 off s hplain => ?_⟩
  rw [← toNat_wordOfBytes]
  exact ⟨_, exec_load_of_memRead rfl (memRead_of_isPlain s hplain) rd, writesReg_writeReg_setFlags rd _ s.flags s, rfl,
    rfl, ⟨rfl, rfl, rfl, rfl, rfl⟩, fun _ => rfl, ⟨rfl, rfl, rfl, rfl, rfl, rfl⟩⟩

/-- Settles O24: the word write of plain storage stores the two bytes and does nothing else. -/
theorem storeToStorage : Obligations.StoreToStorage := by
  unfold Obligations.StoreToStorage
  refine ⟨encodedAs_of_hasFieldsOf (fun _ => rfl) (fun _ => ⟨rfl, rfl, rfl⟩), fun rd rs1 off s hplain => ?_⟩
  refine ⟨_, (exec_store rfl rd).trans (congrArg _ (memWrite_of_isPlain _ s hplain)), fun hwf => ⟨?_, ?_⟩,
    fun b hlo hhi => Memory.readByte_storeWord_of_ne _ _ hlo hhi, fun _ => rfl, rfl, rfl, ⟨rfl, rfl, rfl, rfl, rfl⟩,
    ⟨rfl, rfl, rfl, rfl, rfl, rfl⟩⟩
  · rw [State.setMem_mem, Memory.readByte_storeWord_lo hwf, toNat_loByte]
  · rw [State.setMem_mem, Memory.readByte_storeWord_hi hwf (effAddr s rs1 off).isLt, toNat_hiByte]

/-- Settles O28: the bytes read are the bytes stored. -/
theorem readAfterWrite : Obligations.ReadAfterWrite := by
  unfold Obligations.ReadAfterWrite
  intro s a v hwf hplain
  rw [memRead_of_isPlain _ hplain, memWrite_of_isPlain v s hplain, State.setMem_mem,
    Memory.loadWord_storeWord hwf a.isLt]

/-- The address after a plain one does not wrap (R47). -/
theorem toNat_add_one_of_isPlain {a : Word} (h : isPlain a = true) : (a + 1).toNat = a.toNat + 1 :=
  BitVec.toNat_add_of_lt (toNat_succ_lt_of_isPlain h)

/-- Settles O29: the byte at `a + 1` is the high byte of `v`, which the second write leaves alone, and the byte at
`a + 2` the low byte of `u`. -/
theorem misalignedReadStraddles : Obligations.MisalignedReadStraddles := by
  unfold Obligations.MisalignedReadStraddles
  intro s a v u hwf ha ha1 ha2
  have h1 : (a + 1).toNat = a.toNat + 1 := toNat_add_one_of_isPlain ha
  have h2 : (a + 2).toNat = a.toNat + 1 + 1 := by
    rw [← h1, ← toNat_add_one_of_isPlain ha1, BitVec.add_assoc]
    rfl
  have hwf' := Memory.wf_storeWord hwf (toNat_succ_lt_of_isPlain ha) v
  have hlo : ((s.mem.storeWord a v).storeWord (a + 2) u).readByte (a.toNat + 1) = hiByte v := by
    rw [Memory.readByte_storeWord_of_ne _ _ (by omega) (by omega), Memory.readByte_storeWord_hi hwf a.isLt]
  have hhi : ((s.mem.storeWord a v).storeWord (a + 2) u).readByte (a.toNat + 1 + 1) = loByte u := by
    rw [← h2, Memory.readByte_storeWord_lo hwf']
  rw [memRead_of_isPlain _ ha1, memWrite_of_isPlain u _ ha2, memWrite_of_isPlain v s ha, State.setMem_mem,
    State.setMem_mem, Memory.loadWord, h1, hlo, hhi]

/-- A fetch is the word read at `pc`, then `ir` and `pc` (R65, R110). -/
theorem fetch_of_memRead {s u : State} {a w : Word} (hpc : s.pc = a) (hread : memRead a s = some (w, u)) :
    fetch s = some (w, (u.setIr w).setPc (a + 2)) := by
  rw [fetch, hpc, hread]

/-- Settles O30: the fetch is a word read of the memory the STORE left. -/
theorem fetchSeesTheStore : Obligations.FetchSeesTheStore := by
  unfold Obligations.FetchSeesTheStore
  intro rd rs1 off s t hwf hplain h hpc
  have hmem : t.mem.loadWord t.pc = s.readReg rd := by
    rw [exec_store rfl, memWrite_of_isPlain _ s hplain] at h
    cases h
    rw [hpc, State.setMem_mem, Memory.loadWord_storeWord hwf (effAddr s rs1 off).isLt]
  rw [fetch_of_memRead rfl (memRead_of_isPlain t (hpc ▸ hplain)), hmem]
  rfl

end Sys2Proof.Machine
end

section
/-!
PROOFS. The rest of spec/43_control_flow.md: the branches (O33 to O36), BLT after SUB (O39), an assembled branch (O40)
and the unknown-opcode stop (O41).
-/

namespace Sys2Proof.Machine

/-! ## Branches -/

theorem toNat_branchTarget (s : State) (imm12 : Int) :
    (branchTarget s imm12).toNat = ((s.pc.toNat + imm12) % 2 ^ 16).toNat := by
  rw [← toNat_add_immWord, Int.toNat_natCast, branchTarget]

/-- A branch on any condition completes, at its target when taken and at the next instruction otherwise (R161). -/
theorem completesPc_of_branchIf {i : Instr} {cond : Bool} {imm12 : Int} {s : State}
    (h : exec i s = .next (branchIf cond imm12 s)) :
    CompletesPc i s (if cond = true then ((s.pc.toNat + imm12) % 2 ^ 16).toNat else s.pc.toNat) := by
  refine ⟨_, h, ?_⟩
  cases cond with
  | true =>
    exact ⟨toNat_branchTarget s imm12, rfl, fun _ => rfl, ⟨rfl, rfl, rfl, rfl, rfl⟩, fun _ => rfl,
      ⟨rfl, rfl, rfl, rfl, rfl, rfl⟩⟩
  | false =>
    exact ⟨rfl, rfl, fun _ => rfl, ⟨rfl, rfl, rfl, rfl, rfl⟩, fun _ => rfl, ⟨rfl, rfl, rfl, rfl, rfl, rfl⟩⟩

/-- Settles O33: BRANCH is the branch on the condition that always holds. -/
theorem branchResult : Obligations.BranchResult := by
  unfold Obligations.BranchResult
  exact ⟨encodedAs_of_hasFieldsOf (fun _ => rfl) (fun _ => rfl),
    fun imm12 s => completesPc_of_branchIf (exec_branch imm12 s)⟩

/-- Settles O34: BEQ is the branch on Z. -/
theorem beqResult : Obligations.BeqResult := by
  unfold Obligations.BeqResult
  exact ⟨encodedAs_of_hasFieldsOf (fun _ => rfl) (fun _ => rfl),
    fun imm12 s => completesPc_of_branchIf (exec_beq imm12 s)⟩

/-- Settles O35: BNE is the branch on the negation of Z. -/
theorem bneResult : Obligations.BneResult := by
  unfold Obligations.BneResult
  refine ⟨encodedAs_of_hasFieldsOf (fun _ => rfl) (fun _ => rfl), fun imm12 s => ?_⟩
  simpa only [Bool.not_eq_true'] using completesPc_of_branchIf (exec_bne imm12 s)

/-- Settles O36: BLT is the branch on N. -/
theorem bltResult : Obligations.BltResult := by
  unfold Obligations.BltResult
  exact ⟨encodedAs_of_hasFieldsOf (fun _ => rfl) (fun _ => rfl),
    fun imm12 s => completesPc_of_branchIf (exec_blt imm12 s)⟩

/-! ## The signed comparison -/

/-- Bit 15 of a wrapped difference is the signed comparison when the true difference fits 16 bits, and the opposite of
it when it does not (R25, R154). -/
theorem sub_negative_iff (a b : Word) :
    2 ^ 15 ≤ (a - b).toNat ↔
      if -(2 ^ 15 : Int) ≤ a.toInt - b.toInt ∧ a.toInt - b.toInt < 2 ^ 15 then a.toInt < b.toInt
      else ¬ a.toInt < b.toInt := by
  have hdiff := toNat_sub_eq_emod a b
  have ha := a.isLt
  have hb := b.isLt
  rw [BitVec.toInt_eq_toNat_cond, BitVec.toInt_eq_toNat_cond]
  split_ifs <;> omega

theorem branchIf_pc (cond : Bool) (imm12 : Int) (s : State) :
    (branchIf cond imm12 s).pc = if cond = true then branchTarget s imm12 else s.pc := by
  cases cond <;> rfl

/-- Settles O39: SUB leaves bit 15 of the wrapped difference in N, on which BLT branches. -/
theorem bltAfterSub : Obligations.BltAfterSub := by
  unfold Obligations.BltAfterSub
  intro rd rs1 rs2 imm s
  refine ⟨_, _, rfl, exec_blt imm _, ?_, sub_negative_iff _ _⟩
  rw [branchIf_pc, writeResult_eq_setFlags, State.setFlags_flags, zn]
  simp only [decide_eq_true_eq]
  rfl

/-! ## Assembled branches -/

/-- Settles O40: a displacement within reach survives encoding, and added to `pc` modulo 2^16 it gives the label. -/
theorem assembledBranchReachesItsLabel : Obligations.AssembledBranchReachesItsLabel := by
  unfold Obligations.AssembledBranchReachesItsLabel
  intro here target s hlo hhi hpc
  have hwf : (Instr.branch (branchImm here target)).wellFormed = true := decide_eq_true ⟨hlo, hhi⟩
  refine ⟨_, _, decodeWord_encode hwf, exec_branch _ s, ?_⟩
  apply BitVec.eq_of_toNat_eq
  rw [branchIf_pc, if_pos rfl, toNat_branchTarget, hpc, BitVec.toNat_ofNat, BitVec.toNat_ofNat, branchImm]
  simp only [Int.ofNat_eq_natCast]
  omega

/-! ## The unknown-opcode stop -/

/-- Settles O41: only a record with another opcode is no instruction. -/
theorem unknownOpcodeStops : Obligations.UnknownOpcodeStops := by
  unfold Obligations.UnknownOpcodeStops
  refine ⟨fun a d s hop => ?_, execute_decodeFields⟩
  rw [execute, d.toInstr_of_ge hop]
  rfl

end Sys2Proof.Machine
end

section
/-!
PROOFS. The rest of spec/40_step_cycle.md: the step of a fetched instruction (O42, O43), the wait for console input
(O46, O47), the halted flag (O44) and `Run()` (O57).
-/

namespace Sys2Proof.Machine

/-! ## What a fetched word does -/

/-- A step from plain storage runs the instruction of the word there (R110). -/
theorem step_of_loadWord {s : State} {a w : Word} {i : Instr} (hh : s.halted = false) (hpc : s.pc = a)
    (hplain : isPlain a = true) (hword : s.mem.loadWord a = w) (hi : decodeWord w = .ok i) :
    step s = countCycle (exec i { s with ir := w, pc := a + 2 }) := by
  subst hword
  exact step_of_fetch hh (fetch_of_memRead hpc (memRead_of_isPlain s hplain)) hi

/-- Settles O42: the two bytes at `pc` are the word there. -/
theorem stepRunsTheDecodedInstruction : Obligations.StepRunsTheDecodedInstruction := by
  unfold Obligations.StepRunsTheDecodedInstruction
  intro s i hh hplain hi
  exact step_of_loadWord hh rfl hplain rfl hi

/-- A step whose fetch answers a word of opcode 0 is that fetch, counted (R65, R150). -/
theorem step_of_memRead_nop {s u : State} {a w : Word} (hh : s.halted = false) (hpc : s.pc = a)
    (hread : memRead a s = some (w, u)) (hop : unsignedField w 12 4 = 0) :
    step s = .next { u with ir := w, pc := a + 2, cycle := s.cycle + 1 } := by
  obtain ⟨-, -, -, hnop⟩ := nopResult
  obtain ⟨-, -, hstep⟩ := hnop s _ w hh (fetch_of_memRead hpc hread) hop
  exact hstep

/-- A console character, as a word, has opcode 0 (R65). -/
theorem opcode_setWidth (c : Byte) : unsignedField (c.setWidth 16) 12 4 = 0 := by
  have := c.isLt
  rw [unsignedField_eq, BitVec.toNat_setWidth]
  omega

/-- Settles O43: outside plain storage the bus answers the fetch itself, everywhere but at 0xF003 with a word of
opcode 0 or with the wait. -/
theorem fetchOutsideStorage : Obligations.FetchOutsideStorage := by
  unfold Obligations.FetchOutsideStorage
  refine ⟨fun s hh hpc => ?_, fun s c rest hh hpc hc => ?_, fun s hh hpc hc he => ?_, fun s hh hpc hblocked => ?_,
    fun s hh hpc => ?_, fun s hh hlo hhi hin htimer => ?_⟩
  · exact step_of_memRead_nop hh hpc (memRead_lastAddr s) rfl
  · exact step_of_memRead_nop hh hpc (memRead_consoleIn_pending hc) (opcode_setWidth c)
  · exact step_of_memRead_nop hh hpc (memRead_consoleIn_ended hc he) rfl
  · exact step_of_fetch_none hh (fetch_eq_none.2 ⟨hpc, hblocked⟩)
  · obtain ⟨i, hi, -⟩ := decodeWord_total (Config.timerDraw s.draws)
    exact ⟨i, hi, step_of_fetch hh (fetch_of_memRead hpc (memRead_timerValue s)) hi⟩
  · exact step_of_memRead_nop hh rfl (memRead_other_device s hlo hhi hin htimer) rfl

/-! ## The wait for console input -/

/-- A fetch leaves the console input alone, but for the character it consumes as a NOP (R51, R65). -/
theorem fetch_cin {s u : State} {w : Word} (h : fetch s = some (w, u)) :
    u.cin = s.cin ∨ s.cin.pending ≠ [] ∧ decodeWord w = .ok .nop := by
  obtain ⟨r, hread, rfl⟩ := fetch_eq_some h
  rcases memRead_cases hread with ⟨-, -, rfl⟩ | ⟨-, -, rfl⟩ | ⟨-, c, rest, hc, rfl, rfl⟩ | ⟨-, -, -, -, rfl⟩ |
    ⟨-, -, rfl⟩ | ⟨-, -, -, -, rfl⟩
  case inr.inr.inl =>
    exact .inr ⟨by simp [hc], encodedAs_nop _ (opcode_setWidth c)⟩
  all_goals exact .inl rfl

theorem countCycle_eq_fault {o : Host.Outcome State Fault Refusal} {f : Fault} :
    countCycle o = .fault f ↔ o = .fault f := by
  cases o <;> simp [countCycle]

theorem countCycle_eq_refused {o : Host.Outcome State Fault Refusal} {r : Refusal} :
    countCycle o = .refused r ↔ o = .refused r := by
  cases o <;> simp [countCycle]

theorem step_ne_refused (s : State) (r : Refusal) : step s ≠ .refused r := by
  intro h
  cases hh : s.halted with
  | true => rw [step_of_halted hh] at h; cases h
  | false =>
    cases hf : fetch s with
    | none => rw [step_of_fetch_none hh hf] at h; cases h
    | some x =>
      obtain ⟨w, u⟩ := x
      obtain ⟨i, hi, -⟩ := decodeWord_total w
      rw [step_of_fetch hh hf hi, countCycle_eq_refused] at h
      exact exec_ne_refused i u r h

/-- A LOAD that was fetched waits when the console was blocked before the fetch already: only a NOP is fetched with a
character consumed (R58, R117). -/
theorem consoleBlocked_of_fetch_load {s u : State} {w : Word} {rd rs1 : Nat} {off : Int}
    (hf : fetch s = some (w, u)) (hi : decodeWord w = .ok (.load rd rs1 off)) :
    u.ConsoleBlocked ↔ s.ConsoleBlocked := by
  rcases fetch_cin hf with hcin | ⟨-, hnop⟩
  · rw [State.ConsoleBlocked, hcin, State.ConsoleBlocked]
  · rw [hi] at hnop
    cases hnop

/-- The two ways a step waits: its fetch reads 0xF001, or the LOAD it fetched does (R117). -/
theorem step_eq_fault {s : State} {f : Fault} :
    step s = .fault f ↔
      s.halted = false ∧ s.ConsoleBlocked ∧
        (s.pc = 0xF001 ∨ ∃ w u rd rs1 off, fetch s = some (w, u) ∧ decodeWord w = .ok (.load rd rs1 off) ∧
          effAddr u rs1 off = 0xF001) := by
  constructor
  · intro h
    cases hh : s.halted with
    | true => rw [step_of_halted hh] at h; cases h
    | false =>
      cases hf : fetch s with
      | none =>
        obtain ⟨hpc, hblocked⟩ := fetch_eq_none.1 hf
        exact ⟨rfl, hblocked, .inl hpc⟩
      | some x =>
        obtain ⟨w, u⟩ := x
        obtain ⟨i, hi, -⟩ := decodeWord_total w
        rw [step_of_fetch hh hf hi, countCycle_eq_fault, exec_eq_fault] at h
        obtain ⟨rd, rs1, off, rfl, ha, hblocked⟩ := h
        exact ⟨rfl, (consoleBlocked_of_fetch_load hf hi).1 hblocked, .inr ⟨w, u, rd, rs1, off, rfl, hi, ha⟩⟩
  · rintro ⟨hh, hblocked, hpc | ⟨w, u, rd, rs1, off, hf, hi, ha⟩⟩
    · exact step_of_fetch_none hh (fetch_eq_none.2 ⟨hpc, hblocked⟩)
    · rw [step_of_fetch hh hf hi, countCycle_eq_fault, exec_eq_fault]
      exact ⟨rd, rs1, off, rfl, ha, (consoleBlocked_of_fetch_load hf hi).2 hblocked⟩

/-- Settles O46, from the two ways a step waits. -/
theorem stepCompletesUnlessItWaits : Obligations.StepCompletesUnlessItWaits := by
  unfold Obligations.StepCompletesUnlessItWaits
  exact ⟨step_ne_refused, fun _ _ => step_eq_fault⟩

/-- A core whose console is not blocked can step (R58). -/
theorem step_completes {s : State} (h : ¬ s.ConsoleBlocked) : ∃ t, step s = .next t := by
  cases hstep : step s with
  | next t => exact ⟨t, rfl⟩
  | fault f =>
    obtain ⟨-, hblocked, -⟩ := step_eq_fault.1 hstep
    exact absurd hblocked h
  | refused r => exact absurd hstep (step_ne_refused s r)

/-- Settles O47: neither host action leaves the console blocked. -/
theorem inputLiftsTheWait : Obligations.InputLiftsTheWait := by
  unfold Obligations.InputLiftsTheWait
  refine ⟨fun s c cs => step_completes ?_, fun s => step_completes ?_⟩
  · rintro ⟨hpending, -⟩
    simp [supplyInput] at hpending
  · rintro ⟨-, hended⟩
    simp [endInput] at hended

/-! ## `Run()` -/

theorem run_of_halted (n : Nat) {s : State} (h : s.halted = true) : run n s = .ended s := by
  cases n <;> rw [run, if_pos h]

theorem run_succ_of_step (n : Nat) {s t : State} (hh : s.halted = false) (h : step s = .next t) :
    run (n + 1) s = run n t := by
  simp [run, hh, h]

/-- A run that ends was halted already, or took a step and then ended (R111). -/
theorem run_eq_ended {n : Nat} {s t : State} (h : run n s = .ended t) :
    (s.halted = true ∧ t = s) ∨
    (s.halted = false ∧ ∃ m u, n = m + 1 ∧ step s = .next u ∧ run m u = .ended t) := by
  cases hh : s.halted with
  | true =>
    rw [run_of_halted n hh] at h
    cases h
    exact .inl ⟨rfl, rfl⟩
  | false =>
    refine .inr ⟨rfl, ?_⟩
    cases n with
    | zero => simp [run, hh] at h
    | succ m =>
      cases hstep : step s with
      | next u => exact ⟨m, u, rfl, rfl, run_succ_of_step m hh hstep ▸ h⟩
      | fault f => cases f; simp [run, hh, hstep] at h
      | refused r => simp [run, hh, hstep] at h

theorem halted_of_run_eq_ended {n : Nat} {s t : State} (h : run n s = .ended t) : t.halted = true := by
  induction n generalizing s with
  | zero =>
    rcases run_eq_ended h with ⟨hh, rfl⟩ | ⟨-, m, u, hn, -⟩
    · exact hh
    · cases hn
  | succ n ih =>
    rcases run_eq_ended h with ⟨hh, rfl⟩ | ⟨-, m, u, hn, -, hrun⟩
    · exact hh
    · cases hn
      exact ih hrun

/-- Settles O44: a halted core stays, and a run ends nowhere else. -/
theorem haltedFlag : Obligations.HaltedFlag := by
  unfold Obligations.HaltedFlag
  refine ⟨fun s => ⟨_, exec_halt s, rfl⟩, fun _ _ _ => rfl, fun s t hh h => ?_, fun s => step_of_halted,
    fun n s => run_of_halted n, fun n s t => halted_of_run_eq_ended, fun _ => rfl⟩
  rw [step_of_halted hh] at h
  cases h
  exact hh

/-- A run that has ended ends the same with more fuel (log 29). -/
theorem run_mono {n m : Nat} {s t : State} (hnm : n ≤ m) (h : run n s = .ended t) : run m s = .ended t := by
  induction n generalizing m s with
  | zero =>
    rcases run_eq_ended h with ⟨hh, rfl⟩ | ⟨-, k, u, hk, -⟩
    · exact run_of_halted m hh
    · cases hk
  | succ n ih =>
    rcases run_eq_ended h with ⟨hh, rfl⟩ | ⟨hh, k, u, hk, hstep, hrun⟩
    · exact run_of_halted m hh
    · cases hk
      obtain ⟨m, rfl⟩ := Nat.exists_eq_add_of_le' hnm
      rw [← Nat.add_assoc, run_succ_of_step _ hh hstep]
      exact ih (Nat.le_add_left n m) hrun

/-- Settles O57: one unfolding of `run` per clause, and fuel beyond the end of a run is not used. -/
theorem runRepeatsStep : Obligations.RunRepeatsStep := by
  unfold Obligations.RunRepeatsStep
  exact ⟨fun n s => run_of_halted n, fun n s t => run_succ_of_step n, fun n m s t => run_mono⟩

end Sys2Proof.Machine
end

section
/-!
PROOFS. The statements of spec/70_reset_and_hazards.md: reset (O50, O51), loading a buffer (O55) and the first step of a
program (O56).
-/

namespace Sys2Proof.Machine

/-! ## Reset -/

theorem reset_readReg (k : Nat) : State.reset.readReg k = 0 := by
  rcases Nat.lt_or_ge k 8 with h | h
  · rw [State.readReg_of_lt _ h]
    exact Vector.getElem_replicate h
  · exact State.readReg_of_ge _ h

/-- Settles O51: the registers are a replicated 0, and every other field is written out in `State.reset`. -/
theorem resetValues : Obligations.ResetValues := by
  unfold Obligations.ResetValues
  intro s
  exact ⟨reset_readReg, rfl, rfl, rfl, rfl, rfl, rfl, rfl, fun _ => rfl, rfl, rfl, rfl, rfl, rfl, rfl⟩

/-- Settles O50: memory is empty after reset. -/
theorem resetMeetsTheInvariant : Obligations.ResetMeetsTheInvariant := by
  unfold Obligations.ResetMeetsTheInvariant
  exact ⟨⟨rfl, rfl, Memory.wf_nil⟩, fun _ => ⟨rfl, rfl, Memory.wf_nil⟩⟩

/-! ## Loading -/

/-- A buffer that fits is written to the array, and nothing else is done (R192). -/
theorem loadBuffer_of_le {buf : List Byte} {base : Nat} (h : base + buf.length ≤ 0x10000) (s : State) :
    loadBuffer buf base s = some (s.setMem (s.mem.writeBytes base buf)) :=
  if_neg (Nat.not_lt.2 h)

/-- Settles O55, from the laws of a buffer in the array. -/
theorem loadBufferFillsMemory : Obligations.LoadBufferFillsMemory := by
  unfold Obligations.LoadBufferFillsMemory
  refine ⟨fun buf base s h => if_pos h, fun buf base s h => ?_⟩
  exact ⟨_, loadBuffer_of_le h s, rfl, fun a ha => Memory.readByte_writeBytes_of_not buf s.mem ha,
    fun hwf => ⟨Memory.wf_writeBytes buf hwf h, fun i hi => Memory.readByte_writeBytes buf hwf h hi⟩⟩

/-- The word at the start of a buffer that fits, loaded into an empty array, is the one of its first two bytes
(R66, R192). -/
theorem loadWord_writeBytes_nil {lo hi : Byte} {rest : List Byte} (h : rest.length + 2 ≤ Config.addrSpace) :
    (Memory.writeBytes [] 0 (lo :: hi :: rest)).loadWord 0 = wordOfBytes lo hi := by
  have hfit : 0 + (lo :: hi :: rest).length ≤ Config.addrSpace := by
    rw [Nat.zero_add]
    exact h
  have hlo : (Memory.writeBytes [] 0 (lo :: hi :: rest)).readByte 0 = lo :=
    Memory.readByte_writeBytes _ Memory.wf_nil hfit (i := 0) (Nat.succ_pos _)
  have hhi : (Memory.writeBytes [] 0 (lo :: hi :: rest)).readByte 1 = hi :=
    Memory.readByte_writeBytes _ Memory.wf_nil hfit (i := 1) (by simp)
  exact congrArg₂ wordOfBytes hlo hhi

/-- Settles O56: after the load the word at `pc` = 0, which is plain storage, is that of the program's first two
bytes. -/
theorem bootRunsTheFirstWord : Obligations.BootRunsTheFirstWord := by
  unfold Obligations.BootRunsTheFirstWord
  intro lo hi rest s hlen
  obtain ⟨i, hdecode, -⟩ := decodeWord_total (wordOfBytes lo hi)
  refine ⟨_, i, loadBuffer_of_le ?_ (resetCore s), hdecode, ?_⟩
  · rw [Config.loadBase, Nat.zero_add]
    exact hlen
  · exact step_of_loadWord rfl rfl rfl (loadWord_writeBytes_nil hlen) hdecode

end Sys2Proof.Machine
end

section
/-!
PROOFS. The assembler (spec/30_encoding.md section 7): it emits whole words within its limit (O58).
-/

namespace Sys2Proof.Machine

/-- Pass 2 emits two bytes per instruction, and tests the limit before each (R94, R95). -/
theorem pass2_emits {lim : AsmLimits} {labels : Labels} {lines : List Text} {line here : Nat} {bytes : List Byte}
    (h : pass2 lim labels lines line here = .ok bytes) (hhere : here ≤ lim.maxBytes) :
    bytes.length % 2 = 0 ∧ here + bytes.length ≤ lim.maxBytes := by
  induction lines generalizing line here bytes with
  | nil =>
    cases h
    exact ⟨rfl, hhere⟩
  | cons text rest ih =>
    rw [pass2] at h
    split at h
    · exact ih h hhere
    · split at h
      · cases h
      · split at h
        · cases h
        · next hfits =>
          split at h
          · cases h
          · next tail htail =>
            cases h
            obtain ⟨heven, hlimit⟩ := ih htail (Nat.not_lt.1 hfits)
            rw [List.length_append, bytesOfWord, List.length_cons, List.length_singleton]
            omega

/-- Settles O58, since pass 2 emits the bytes from address 0. -/
theorem assemblerEmitsWholeWords : Obligations.AssemblerEmitsWholeWords := by
  unfold Obligations.AssemblerEmitsWholeWords
  intro lim source bytes h
  dsimp only [assemble] at h
  split at h
  · cases h
  · obtain ⟨heven, hlimit⟩ := pass2_emits h (Nat.zero_le _)
    rw [Nat.zero_add] at hlimit
    exact ⟨heven, hlimit⟩

end Sys2Proof.Machine
end
